-- ==== Sys2Proof/Word.lean ====
section
/-! DEFINITION. The widths the spec gives its quantities (spec/00_scope.md R6, R11): bytes, 16-bit words,
the instruction's nibbles and immediates, and the two index spaces that are no bits: register and key numbers. -/

namespace Sys2Proof

/-- A byte of memory, a general register, a timer (00_scope R6, `TIMER_W`). -/
abbrev Byte := BitVec 8

/-- An instruction word, the program counter, the index register, a stack entry (00_scope R6, `WORD`). -/
abbrev Word := BitVec 16

/-- A 4-bit field of an instruction word (00_scope R11). -/
abbrev Nibble := BitVec 4

/-- The 12-bit immediate `nnn` (30_encoding R72). -/
abbrev Imm12 := BitVec 12

/-- A register number: every value of a 4-bit register field names a register (10_state R21). -/
abbrev Reg := Fin 16

/-- A key number, 0 to 15 (10_state R30). -/
abbrev KeyNo := Fin 16

end Sys2Proof
end

