-- ==== Sys2Proof/Syntax.lean ====
section
/-! DEFINITION. The instructions: one constructor for each of the 35 rows of spec/opcode_table.json, in its order
(spec/30_encoding.md R75), with the operand fields of the row's format (R71, R72). -/

namespace Sys2Proof

/-- An instruction. The fields hold exactly the values the encoding has room for: every value of every field is legal
(30_encoding R77). -/
inductive Instr where
  /-- 0000, R91 -/
  | nop
  /-- 00E0, R140 -/
  | cls
  /-- 00EE, R92 -/
  | ret
  /-- 1nnn, R93 -/
  | jp (nnn : Imm12)
  /-- 2nnn, R94 -/
  | call (nnn : Imm12)
  /-- 3xnn, R100 -/
  | seImm (x : Reg) (nn : Byte)
  /-- 4xnn, R101 -/
  | sneImm (x : Reg) (nn : Byte)
  /-- 5xy0, R102 -/
  | seReg (x y : Reg)
  /-- 6xnn, R110 -/
  | ldImm (x : Reg) (nn : Byte)
  /-- 7xnn, R111 -/
  | addImm (x : Reg) (nn : Byte)
  /-- 8xy0, R112 -/
  | ldReg (x y : Reg)
  /-- 8xy1, R113 -/
  | orReg (x y : Reg)
  /-- 8xy2, R114 -/
  | andReg (x y : Reg)
  /-- 8xy3, R115 -/
  | xorReg (x y : Reg)
  /-- 8xy4, R116 -/
  | addReg (x y : Reg)
  /-- 8xy5, R117 -/
  | sub (x y : Reg)
  /-- 8xy6, R118; the field `y` is encoded and ignored by the operation -/
  | shr (x y : Reg)
  /-- 8xy7, R119 -/
  | subn (x y : Reg)
  /-- 8xyE, R120; the field `y` is encoded and ignored by the operation -/
  | shl (x y : Reg)
  /-- 9xy0, R103 -/
  | sneReg (x y : Reg)
  /-- Annn, R130 -/
  | ldI (nnn : Imm12)
  /-- Bnnn, R95 -/
  | jpV0 (nnn : Imm12)
  /-- Cxnn, R121 -/
  | rnd (x : Reg) (nn : Byte)
  /-- Dxyn, R141 -/
  | drw (x y : Reg) (n : Nibble)
  /-- Ex9E, R104 -/
  | skp (x : Reg)
  /-- ExA1, R105 -/
  | sknp (x : Reg)
  /-- Fx07, R150 -/
  | ldVxDt (x : Reg)
  /-- Fx0A, R151 -/
  | ldVxK (x : Reg)
  /-- Fx15, R152 -/
  | ldDtVx (x : Reg)
  /-- Fx18, R153 -/
  | ldStVx (x : Reg)
  /-- Fx1E, R131 -/
  | addI (x : Reg)
  /-- Fx29, R132 -/
  | ldF (x : Reg)
  /-- Fx33, R133 -/
  | ldB (x : Reg)
  /-- Fx55, R134 -/
  | stRegs (x : Reg)
  /-- Fx65, R135 -/
  | ldRegs (x : Reg)
  deriving DecidableEq, Repr

end Sys2Proof
end

