-- ==== Sys2Proof/WellFormed.lean ====
section
/-! DEFINITION. Which words are instructions: the 35 rows of the opcode map as masks and patterns
(spec/30_encoding.md R73, R75). A term of `Instr` needs no further check, since its fields hold exactly the values R72
gives them and all of those are legal (R77); what can be ill formed is a WORD, and the check is this table. -/

namespace Sys2Proof

/-- A row of the opcode map (30_encoding R75): its mask, its match value, and its mnemonic as spec/opcode_table.json spells it. -/
structure Row where
  mask : Word
  pattern : Word
  mnemonic : String
  deriving DecidableEq, Repr

/-- A word matches a row when `w AND mask = match` (30_encoding R73). -/
def Row.hits (r : Row) (w : Word) : Bool := w &&& r.mask == r.pattern

/-- The opcode map, in the order of 30_encoding R75. -/
def opcodeTable : List Row :=
  [ ⟨0xFFFF, 0x0000, "NOP"⟩, ⟨0xFFFF, 0x00E0, "CLS"⟩, ⟨0xFFFF, 0x00EE, "RET"⟩,
    ⟨0xF000, 0x1000, "JP"⟩, ⟨0xF000, 0x2000, "CALL"⟩,
    ⟨0xF000, 0x3000, "SE_imm"⟩, ⟨0xF000, 0x4000, "SNE_imm"⟩, ⟨0xF00F, 0x5000, "SE_reg"⟩ ] ++
  [ ⟨0xF000, 0x6000, "LD_imm"⟩, ⟨0xF000, 0x7000, "ADD_imm"⟩, ⟨0xF00F, 0x8000, "LD_reg"⟩,
    ⟨0xF00F, 0x8001, "OR"⟩, ⟨0xF00F, 0x8002, "AND"⟩, ⟨0xF00F, 0x8003, "XOR"⟩,
    ⟨0xF00F, 0x8004, "ADD_reg"⟩, ⟨0xF00F, 0x8005, "SUB"⟩, ⟨0xF00F, 0x8006, "SHR"⟩,
    ⟨0xF00F, 0x8007, "SUBN"⟩, ⟨0xF00F, 0x800E, "SHL"⟩ ] ++
  [ ⟨0xF00F, 0x9000, "SNE_reg"⟩, ⟨0xF000, 0xA000, "LD_I"⟩, ⟨0xF000, 0xB000, "JP_V0"⟩,
    ⟨0xF000, 0xC000, "RND"⟩, ⟨0xF000, 0xD000, "DRW"⟩, ⟨0xF0FF, 0xE09E, "SKP"⟩, ⟨0xF0FF, 0xE0A1, "SKNP"⟩ ] ++
  [ ⟨0xF0FF, 0xF007, "LD_Vx_DT"⟩, ⟨0xF0FF, 0xF00A, "LD_Vx_K"⟩, ⟨0xF0FF, 0xF015, "LD_DT_Vx"⟩,
    ⟨0xF0FF, 0xF018, "LD_ST_Vx"⟩, ⟨0xF0FF, 0xF01E, "ADD_I"⟩, ⟨0xF0FF, 0xF029, "LD_F"⟩,
    ⟨0xF0FF, 0xF033, "LD_B"⟩, ⟨0xF0FF, 0xF055, "ST_regs"⟩, ⟨0xF0FF, 0xF065, "LD_regs"⟩ ]

/-- The check a word must pass to be an instruction: some row matches it (30_encoding R76). -/
def wellFormedWord (w : Word) : Bool := opcodeTable.any (·.hits w)

/-- The mnemonic of an instruction's row in spec/opcode_table.json. -/
def Instr.mnemonic : Instr → String
  | .nop => "NOP"
  | .cls => "CLS"
  | .ret => "RET"
  | .jp _ => "JP"
  | .call _ => "CALL"
  | .seImm _ _ => "SE_imm"
  | .sneImm _ _ => "SNE_imm"
  | .seReg _ _ => "SE_reg"
  | .ldImm _ _ => "LD_imm"
  | .addImm _ _ => "ADD_imm"
  | .ldReg _ _ => "LD_reg"
  | .orReg _ _ => "OR"
  | .andReg _ _ => "AND"
  | .xorReg _ _ => "XOR"
  | .addReg _ _ => "ADD_reg"
  | .sub _ _ => "SUB"
  | .shr _ _ => "SHR"
  | .subn _ _ => "SUBN"
  | .shl _ _ => "SHL"
  | .sneReg _ _ => "SNE_reg"
  | .ldI _ => "LD_I"
  | .jpV0 _ => "JP_V0"
  | .rnd _ _ => "RND"
  | .drw _ _ _ => "DRW"
  | .skp _ => "SKP"
  | .sknp _ => "SKNP"
  | .ldVxDt _ => "LD_Vx_DT"
  | .ldVxK _ => "LD_Vx_K"
  | .ldDtVx _ => "LD_DT_Vx"
  | .ldStVx _ => "LD_ST_Vx"
  | .addI _ => "ADD_I"
  | .ldF _ => "LD_F"
  | .ldB _ => "LD_B"
  | .stRegs _ => "ST_regs"
  | .ldRegs _ => "LD_regs"

end Sys2Proof
end

