-- ==== Sys2Proof/Decode.lean ====
section
/-! DEFINITION. Decoding a word, a byte sequence and a table word, and encoding an instruction
(spec/30_encoding.md R70 to R77; byte order spec/20_memory.md R54). Decode is total and refuses by name. -/

namespace Sys2Proof

/-- `nibble1 = w[15:12]` (00_scope R11). -/
def nibble1 (w : Word) : Nibble := w.extractLsb 15 12

/-- `nibble2 = w[11:8]` (00_scope R11). -/
def nibble2 (w : Word) : Nibble := w.extractLsb 11 8

/-- `nibble3 = w[7:4]` (00_scope R11). -/
def nibble3 (w : Word) : Nibble := w.extractLsb 7 4

/-- `nibble4 = w[3:0]` (00_scope R11). -/
def nibble4 (w : Word) : Nibble := w.extractLsb 3 0

/-- `nn = w[7:0]` (00_scope R11). -/
def fieldNN (w : Word) : Byte := w.extractLsb 7 0

/-- `nnn = w[11:0]` (00_scope R11). -/
def fieldNNN (w : Word) : Imm12 := w.extractLsb 11 0

/-- The register field `x = w[11:8]` (30_encoding R72). -/
def fieldX (w : Word) : Reg := (nibble2 w).toFin

/-- The register field `y = w[7:4]` (30_encoding R72). -/
def fieldY (w : Word) : Reg := (nibble3 w).toFin

/-- First nibble 8: the function is `nibble4` (30_encoding R74). -/
def decode8 (w : Word) : Option Instr :=
  let x := fieldX w
  let y := fieldY w
  match nibble4 w with
  | 0x0#4 => some (.ldReg x y)
  | 0x1#4 => some (.orReg x y)
  | 0x2#4 => some (.andReg x y)
  | 0x3#4 => some (.xorReg x y)
  | 0x4#4 => some (.addReg x y)
  | 0x5#4 => some (.sub x y)
  | 0x6#4 => some (.shr x y)
  | 0x7#4 => some (.subn x y)
  | 0xE#4 => some (.shl x y)
  | _ => none

/-- First nibble F: the function is the low byte (30_encoding R74). -/
def decodeF (w : Word) : Option Instr :=
  let x := fieldX w
  match fieldNN w with
  | 0x07#8 => some (.ldVxDt x)
  | 0x0A#8 => some (.ldVxK x)
  | 0x15#8 => some (.ldDtVx x)
  | 0x18#8 => some (.ldStVx x)
  | 0x1E#8 => some (.addI x)
  | 0x29#8 => some (.ldF x)
  | 0x33#8 => some (.ldB x)
  | 0x55#8 => some (.stRegs x)
  | 0x65#8 => some (.ldRegs x)
  | _ => none

/-- First nibble E: the function is the low byte (30_encoding R74). -/
def decodeE (w : Word) : Option Instr :=
  match fieldNN w with
  | 0x9E#8 => some (.skp (fieldX w))
  | 0xA1#8 => some (.sknp (fieldX w))
  | _ => none

/-- First nibble 0: three whole-word matches (30_encoding R74). -/
def decode0 (w : Word) : Option Instr :=
  match w with
  | 0x0000#16 => some .nop
  | 0x00E0#16 => some .cls
  | 0x00EE#16 => some .ret
  | _ => none

/-- The decoder of 30_encoding R74: `none` is an unknown opcode (R76). -/
def decodeWord (w : Word) : Option Instr :=
  let x := fieldX w
  let y := fieldY w
  match nibble1 w with
  | 0x0#4 => decode0 w
  | 0x1#4 => some (.jp (fieldNNN w))
  | 0x2#4 => some (.call (fieldNNN w))
  | 0x3#4 => some (.seImm x (fieldNN w))
  | 0x4#4 => some (.sneImm x (fieldNN w))
  | 0x5#4 => if nibble4 w = 0x0#4 then some (.seReg x y) else none
  | 0x6#4 => some (.ldImm x (fieldNN w))
  | 0x7#4 => some (.addImm x (fieldNN w))
  | 0x8#4 => decode8 w
  | 0x9#4 => if nibble4 w = 0x0#4 then some (.sneReg x y) else none
  | 0xA#4 => some (.ldI (fieldNNN w))
  | 0xB#4 => some (.jpV0 (fieldNNN w))
  | 0xC#4 => some (.rnd x (fieldNN w))
  | 0xD#4 => some (.drw x y (nibble4 w))
  | 0xE#4 => decodeE w
  | 0xF#4 => decodeF w
  | _ => none

/-- Why a byte sequence does not decode. -/
inductive DecodeError where
  /-- Fewer than the two bytes of an instruction word are left (30_encoding R70). -/
  | truncated
  /-- The word matches no row of the opcode map (30_encoding R76). -/
  | unknownOpcode (w : Word)
  deriving DecidableEq, Repr

/-- A word from its bytes, the byte at the lower address first: big-endian (20_memory R54). -/
def wordOfBytes (hi lo : Byte) : Word := BitVec.ofNat 16 (hi.toNat * 256 + lo.toNat)

/-- The bytes of a word in the order they stand in memory: big-endian (20_memory R54). -/
def bytesOfWord (w : Word) : List Byte := [w.extractLsb 15 8, w.extractLsb 7 0]

/-- Decode the instruction at the head of a byte sequence, with the rest of the sequence: every instruction is two
bytes (30_encoding R70). -/
def decode : List Byte → Except DecodeError (Instr × List Byte)
  | hi :: lo :: rest =>
    match decodeWord (wordOfBytes hi lo) with
    | some i => .ok (i, rest)
    | none => .error (.unknownOpcode (wordOfBytes hi lo))
  | _ => .error .truncated

/-- A register number as the four bits of its field (30_encoding R72). -/
def regBits (x : Reg) : Nibble := BitVec.ofFin x

/-- A word of format `A`: opcode nibble, then `nnn` (30_encoding R71). -/
def wordA (op : Nibble) (nnn : Imm12) : Word := op ++ nnn

/-- A word of format `XI`: opcode nibble, `x`, `nn` (30_encoding R71). -/
def wordXI (op : Nibble) (x : Reg) (nn : Byte) : Word := op ++ regBits x ++ nn

/-- A word of format `XY` or `XYN`: opcode nibble, `x`, `y`, last nibble (30_encoding R71). -/
def wordXY (op : Nibble) (x y : Reg) (last : Nibble) : Word := op ++ regBits x ++ regBits y ++ last

/-- The encoding of an instruction, from the `encoding` column of spec/opcode_table.json (30_encoding R71, R75).
Format `X` is `XI` with the function byte in the place of `nn`. -/
def encode : Instr → Word
  | .nop => 0x0000
  | .cls => 0x00E0
  | .ret => 0x00EE
  | .jp nnn => wordA 0x1 nnn
  | .call nnn => wordA 0x2 nnn
  | .seImm x nn => wordXI 0x3 x nn
  | .sneImm x nn => wordXI 0x4 x nn
  | .seReg x y => wordXY 0x5 x y 0x0
  | .ldImm x nn => wordXI 0x6 x nn
  | .addImm x nn => wordXI 0x7 x nn
  | .ldReg x y => wordXY 0x8 x y 0x0
  | .orReg x y => wordXY 0x8 x y 0x1
  | .andReg x y => wordXY 0x8 x y 0x2
  | .xorReg x y => wordXY 0x8 x y 0x3
  | .addReg x y => wordXY 0x8 x y 0x4
  | .sub x y => wordXY 0x8 x y 0x5
  | .shr x y => wordXY 0x8 x y 0x6
  | .subn x y => wordXY 0x8 x y 0x7
  | .shl x y => wordXY 0x8 x y 0xE
  | .sneReg x y => wordXY 0x9 x y 0x0
  | .ldI nnn => wordA 0xA nnn
  | .jpV0 nnn => wordA 0xB nnn
  | .rnd x nn => wordXI 0xC x nn
  | .drw x y n => wordXY 0xD x y n
  | .skp x => wordXI 0xE x 0x9E
  | .sknp x => wordXI 0xE x 0xA1
  | .ldVxDt x => wordXI 0xF x 0x07
  | .ldVxK x => wordXI 0xF x 0x0A
  | .ldDtVx x => wordXI 0xF x 0x15
  | .ldStVx x => wordXI 0xF x 0x18
  | .addI x => wordXI 0xF x 0x1E
  | .ldF x => wordXI 0xF x 0x29
  | .ldB x => wordXI 0xF x 0x33
  | .stRegs x => wordXI 0xF x 0x55
  | .ldRegs x => wordXI 0xF x 0x65

/-- The word an opcode-table number of `nbits` bits stands for: the bits from `nbits` up are 0. Every row of this table
is one word of 16 bits, numbered from its least significant bit. -/
def tableWord (nbits w : Nat) : Word := BitVec.ofNat 16 (w % 2 ^ nbits)

/-- What the decoder reads from the bytes of a table word, laid out as the hardware stores them. -/
def decodeTableWord (nbits w : Nat) : Option Instr :=
  match decode (bytesOfWord (tableWord nbits w)) with
  | .ok (i, _) => some i
  | .error _ => none

end Sys2Proof
end

