-- ==== Sys2Proof/Config.lean ====
section
/-! DEFINITION. What the hardware fixes (spec/00_scope.md R6), and the two parameters the spec leaves open
(R7): the glyph table and the random draw, each a constant without a body, so that no proof can see its value. -/

namespace Sys2Proof.Config

/-- `MEM_SIZE`: bytes of memory, addresses 0 to 4095 (00_scope R6). -/
@[simp, reducible] def memSize : Nat := 4096

/-- `PROG_BASE`: where `load` writes the first program byte, and the program counter after reset (00_scope R6). -/
@[simp, reducible] def progBase : Nat := 512

/-- `MAX_ROM`: the largest payload `load` accepts (00_scope R6). -/
@[simp, reducible] def maxRom : Nat := memSize - progBase

/-- `GLYPH_BYTES`: the glyph table stands at addresses 0 to 79 (00_scope R6; `GLYPH_BASE` is 0). -/
@[simp, reducible] def glyphBytes : Nat := 80

/-- `GLYPH_STRIDE`: bytes per glyph (00_scope R6). -/
@[simp, reducible] def glyphStride : Nat := 5

/-- `FLAG_REG`: the index of the flag register VF (00_scope R6). -/
@[simp, reducible] def flagReg : Reg := 15

/-- `STACK_DEPTH`: stack entries (00_scope R6). -/
@[simp, reducible] def stackDepth : Nat := 16

/-- `GLYPH[a]` for `a` in 0..79: the bytes of the built-in glyph table, which the source does not print
(00_scope R7, 10_state R33, decision D3: OPEN). No body: a claim holds for every table. DESIGN CHOICE, safe (log 1). -/
opaque glyph : Nat → Byte

/-- The conventional font the spec prints as the default of `GLYPH` (10_state R33, from general knowledge there).
PRESUMED (log 1): no definition of the machine uses it. -/
def defaultGlyph : List Byte :=
  [0xF0, 0x90, 0x90, 0x90, 0xF0,  0x20, 0x60, 0x20, 0x20, 0x70,
   0xF0, 0x10, 0xF0, 0x80, 0xF0,  0xF0, 0x10, 0xF0, 0x10, 0xF0] ++
  [0x90, 0x90, 0xF0, 0x10, 0x10,  0xF0, 0x80, 0xF0, 0x10, 0xF0,
   0xF0, 0x80, 0xF0, 0x90, 0xF0,  0xF0, 0x10, 0x20, 0x40, 0x40] ++
  [0xF0, 0x90, 0xF0, 0x90, 0xF0,  0xF0, 0x90, 0xF0, 0x10, 0xF0,
   0xF0, 0x90, 0xF0, 0x90, 0x90,  0xE0, 0x90, 0xE0, 0x90, 0xE0] ++
  [0xF0, 0x80, 0x80, 0x80, 0xF0,  0xE0, 0x90, 0x90, 0x90, 0xE0,
   0xF0, 0x80, 0xF0, 0x80, 0xF0,  0xF0, 0x80, 0xF0, 0x80, 0x80]

/-- The premise a claim about the shape of a glyph must name (10_state R33, decision D3). -/
def UsesDefaultGlyph : Prop := ∀ a, a < glyphBytes → glyph a = defaultGlyph.getD a 0

/-- `rand8`: the value drawn by the `k`-th execution of Cxnn (00_scope R7, 42_alu R121, decision D10: OPEN).
No body: nothing is known of any draw. The counter `k` is the model's own field `State.draws` (log 3). -/
opaque rand8 : Nat → Byte

end Sys2Proof.Config
end

