-- ==== Sys2Proof/Machine/State.lean ====
section
/-! DEFINITION. The machine's state as plain data (spec/10_state.md R20: eleven elements), the reasons a step can stop
(spec/60_exceptions.md R160), and the state after reset (10_state R35, R36). -/

namespace Sys2Proof.Machine

/-- Memory as (address, byte) pairs in one canonical form (`Memory.wf`, Machine/Ops.lean): addresses strictly rising
and below 4096, no entry equal to what an unlisted address reads as (10_state R32, 20_memory R50). -/
abbrev Memory := List Host.Cell

/-- The display: 32 rows, top row first, of 64 pixels, column 0 first; pixel `col + 64*row` of the spec's row-major
`disp[0..2047]` is column `col` of row `row` (10_state R32). -/
abbrev Display := Vector (Vector Bool 64) 32

/-- The Machine State (10_state R20), and one field of the model's own, `draws`. -/
structure State where
  /-- `mem[0..4095]` (R32) -/
  mem : Memory
  /-- the program counter `pc` (R23) -/
  pc : Word
  /-- the general registers `V[0..15]`; `V[15]` is the flag register VF (R21, R22) -/
  v : Vector Byte 16
  /-- the index register `I` (R28) -/
  ireg : Word
  /-- the return-address stack `stack[0..15]` (R29) -/
  stack : Vector Word 16
  /-- the stack pointer: how many entries are in use, 0 to 16 (R29) -/
  sp : Fin 17
  /-- the delay timer `DT` (R31) -/
  dt : Byte
  /-- the sound timer `ST` (R31) -/
  st : Byte
  /-- the display buffer `disp` (R32) -/
  disp : Display
  /-- the key states `key[0..15]`, true meaning pressed (R30) -/
  key : Vector Bool 16
  /-- the beep signal (R27) -/
  beep : Bool
  /-- THE MODEL'S OWN: how many values of `rand8` have been drawn, so that each Cxnn draws a fresh free value
  (42_alu R121). DESIGN CHOICE, safe (log 3). -/
  draws : Nat
  deriving DecidableEq, Repr

/-- The conditions a step can end with instead of `ok` (60_exceptions R160). Each is what the spec says the hardware
reports to the host in place of `ok`. -/
inductive Fault where
  /-- Code 1. Raised by the step when the fetched word `w` matches no row of the opcode map (R161). Safe: the source names it. -/
  | unknownOpcode (w : Word)
  /-- Code 2. Raised by 2nnn with sixteen entries in use; `pc0` is the instruction's address (R162, D12). Safe. -/
  | stackOverflow (pc0 : Word)
  /-- Code 3. Raised by 00EE with no entry in use; `pc0` is the instruction's address (R163, D12). Safe. -/
  | stackUnderflow (pc0 : Word)
  /-- Code 4. Raised by fetch, Dxyn, Fx33, Fx55 and Fx65 when an address above 4095 would be accessed; `addr` is the
  lowest such address (R164, D4, D22). Safe: the spec stops where the source is silent. -/
  | addressOutOfRange (addr : Nat)
  /-- Code 5. Raised by Ex9E and ExA1 when `v = V[x]` is above 15 (R165, D5). Safe, for the same reason. -/
  | keyOperandOutOfRange (v : Byte)
  deriving DecidableEq, Repr

/-- Why the model gives an instruction no meaning. -/
inductive Refusal where
  /-- Raised by an arm of `exec` whose instruction has no meaning yet. Safe. No arm of this model raises it. -/
  | notModelled (mnemonic : String)
  deriving DecidableEq, Repr

/-- The reset state (10_state R35, R36): memory as an unlisted address reads (glyph table, then zeros), `pc = 512`,
everything else zero or false. `V[0]`, `sp`, `pc`, memory and display are the source's; the other zeros are the spec's own
decision D2 (log 2, unsafe); `draws` is the model's (log 3). -/
def State.reset : State :=
  { mem := []
    pc := 512
    v := Vector.replicate 16 0
    ireg := 0
    stack := Vector.replicate 16 0
    sp := 0
    dt := 0
    st := 0
    disp := Vector.replicate 32 (Vector.replicate 64 false)
    key := Vector.replicate 16 false
    beep := false
    draws := 0 }

end Sys2Proof.Machine
end

