-- ==== Sys2Proof/Machine/Ops.lean ====
section
/-! DEFINITION. The named operations over memory, registers, stack, display and timers; the phases of a step around
the instruction (spec/40_step_and_control_flow.md R90); and raising a fault, with the state it leaves
(spec/60_exceptions.md R169, R170). -/

namespace Sys2Proof.Machine

/-! ### One named update per field -/

def State.setMem (s : State) (m : Memory) : State := { s with mem := m }
def State.setPc (s : State) (p : Word) : State := { s with pc := p }
/-- Write general register `x`: all sixteen are writable, none is hard-wired (10_state R21). -/
def State.setV (s : State) (x : Reg) (b : Byte) : State := { s with v := s.v.set x b }
/-- Write all sixteen general registers at once (Fx65). -/
def State.setRegs (s : State) (r : Vector Byte 16) : State := { s with v := r }
def State.setI (s : State) (w : Word) : State := { s with ireg := w }
def State.setStack (s : State) (e : Vector Word 16) (p : Fin 17) : State := { s with stack := e, sp := p }
def State.setDt (s : State) (b : Byte) : State := { s with dt := b }
def State.setSt (s : State) (b : Byte) : State := { s with st := b }
def State.setDisp (s : State) (d : Display) : State := { s with disp := d }
def State.setKey (s : State) (k : KeyNo) (pressed : Bool) : State := { s with key := s.key.set k pressed }
def State.setBeep (s : State) (b : Bool) : State := { s with beep := b }
def State.setDraws (s : State) (n : Nat) : State := { s with draws := n }

/-- Read general register `x` (10_state R21). -/
def State.getV (s : State) (x : Reg) : Byte := s.v[x]

/-! ### Memory -/

/-- What an address no entry lists reads as: its contents in the reset state (10_state R35). The glyph bytes are the open
parameter `GLYPH` (log 1). -/
def Memory.unlisted (a : Nat) : Byte := if a < Config.glyphBytes then Config.glyph a else 0

/-- The byte at address `a`, for `a` below 4096 (20_memory R52; the range check is `rangeFault` and `readByte`). -/
def Memory.read (m : Memory) (a : Nat) : Byte :=
  match m with
  | [] => Memory.unlisted a
  | c :: rest => if c.1 = a then c.2 else Memory.read rest a

/-- Put an entry at the head, unless it says what an unlisted address reads as anyway. -/
def Memory.put (a : Nat) (b : Byte) (rest : Memory) : Memory :=
  if b = Memory.unlisted a then rest else (a, b) :: rest

/-- Write byte `b` at address `a`, keeping the canonical form (20_memory R52, R57). -/
def Memory.write (m : Memory) (a : Nat) (b : Byte) : Memory :=
  match m with
  | [] => Memory.put a b []
  | c :: rest =>
    if c.1 < a then c :: Memory.write rest a b
    else if c.1 = a then Memory.put a b rest
    else Memory.put a b (c :: rest)

/-- Write bytes at `a`, `a + 1`, ..., in ascending address order (43_index_memory R136). -/
def Memory.writeBytes (m : Memory) (a : Nat) : List Byte → Memory
  | [] => m
  | b :: bs => Memory.writeBytes (m.write a b) (a + 1) bs

/-- The bytes at `a`, `a + 1`, ..., `a + n - 1`. -/
def Memory.readBytes (m : Memory) (a : Nat) : Nat → List Byte
  | 0 => []
  | n + 1 => m.read a :: Memory.readBytes m (a + 1) n

/-- The addresses of the entries lie in `lo ≤ a < 4096` and rise strictly, and no entry says what an unlisted address reads as. -/
def Memory.wfFrom (lo : Nat) : Memory → Bool
  | [] => true
  | c :: rest => decide (lo ≤ c.1) && decide (c.1 < Config.memSize) && decide (c.2 ≠ Memory.unlisted c.1) && Memory.wfFrom (c.1 + 1) rest

/-- The canonical form: memory holds 4096 bytes, each written in one way only (10_state R32). -/
def Memory.wf (m : Memory) : Bool := Memory.wfFrom 0 m

/-- `MemRead(addr, 1)` (20_memory R52): a byte, or nothing above address 4095. -/
def readByte (s : State) (a : Nat) : Option Byte := if a < Config.memSize then some (s.mem.read a) else none

/-- `MemRead(addr, 2)` (20_memory R52): the big-endian word of the bytes at `a` and `a + 1`, both of which must exist. -/
def readWord (s : State) (a : Nat) : Option Word :=
  match readByte s a, readByte s (a + 1) with
  | some hi, some lo => some (wordOfBytes hi lo)
  | _, _ => none

/-! ### Raising a fault -/

/-- `raise F(info)` (60_exceptions R169): the step ends with the fault as its result. There is no handler, no saved
register and no mode to change; nothing of the fault is recorded in the state. The state it leaves is `State.leftByFault`. -/
def raise (f : Fault) : Host.Outcome State Fault Refusal := .fault f

/-- The lowest address above 4095 that an access from `a` upward touches (20_memory R53, D22). -/
def lowestOutside (a : Nat) : Nat := max a Config.memSize

/-- The state a failing step leaves (60_exceptions R170, D6; log 7): a fetch fault leaves the state as it was; any other fault
leaves `pc = pc0 + 2` and nothing else changed, and no timer decays. `s` is the state before the step. -/
def State.leftByFault (s : State) : State :=
  match readWord s s.pc.toNat with
  | none => s
  | some _ => s.setPc (s.pc + 2)

/-- The range check of 20_memory R53 for an instruction that touches the `n` bytes at `I`, `I + 1`, ..., `I + n - 1`:
addresses are formed without wrap-around, and with `n = 0` there is no access and no fault. -/
def rangeFault (s : State) (n : Nat) : Option Fault :=
  if 0 < n ∧ Config.memSize ≤ s.ireg.toNat + n - 1 then some (.addressOutOfRange (lowestOutside s.ireg.toNat)) else none

/-- Run `k` on the instruction's state when the `n` bytes at `I` exist, else raise the fault and change nothing (20_memory R53). -/
def withBytesAtI (s : State) (n : Nat) (k : Host.Outcome State Fault Refusal) : Host.Outcome State Fault Refusal :=
  match rangeFault s n with
  | some f => raise f
  | none => k

/-! ### The program counter and the stack -/

/-- Phase 1's advance: `pc <- (pc0 + 2) mod 65536` (40 R90). -/
def State.advance (s : State) : State := s.setPc (s.pc + 2)

/-- The address of the instruction that is executing: `pc0 = pc - 2` (00_scope R12). -/
def State.pc0 (s : State) : Word := s.pc - 2

/-- `skip` when the condition holds: `pc <- (pc + 2) mod 65536` (41_skips R106). -/
def State.skipIf (s : State) (c : Bool) : State := if c then s.setPc (s.pc + 2) else s

/-- Push `w`, or `none` when all sixteen entries are in use (10_state R29): write `stack[sp]`, then increment `sp`. -/
def State.push (s : State) (w : Word) : Option State :=
  if h : s.sp.val < 16 then some (s.setStack (s.stack.set s.sp.val w h) ⟨s.sp.val + 1, Nat.succ_lt_succ h⟩) else none

/-- Pop, or `none` when no entry is in use (10_state R29): decrement `sp`, then read `stack[sp]`, whose bits stay in place (D15, log 11). -/
def State.pop (s : State) : Option (Word × State) :=
  match s with
  | { sp := ⟨0, _⟩, .. } => none
  | { sp := ⟨n + 1, h⟩, .. } =>
    some (s.stack[n]'(Nat.lt_of_succ_lt_succ h), s.setStack s.stack ⟨n, Nat.lt_of_succ_lt h⟩)

/-! ### The display -/

/-- Column of the display for an unreduced coordinate: modulo 64 (44_display R143). -/
def wrapCol (n : Nat) : Fin 64 := Fin.ofNat 64 n

/-- Row of the display for an unreduced coordinate: modulo 32 (44_display R143). -/
def wrapRow (n : Nat) : Fin 32 := Fin.ofNat 32 n

/-- The pixel at a column and row. -/
def Display.pixel (d : Display) (col : Fin 64) (row : Fin 32) : Bool := d[row][col]

/-- The display with one pixel set to `b`. -/
def Display.setPixel (d : Display) (col : Fin 64) (row : Fin 32) (b : Bool) : Display := d.set row (d[row].set col b)

/-- The display with every pixel false (44_display R140). -/
def Display.clear : Display := Vector.replicate 32 (Vector.replicate 64 false)

/-- Whether the sprite byte has a pixel at column offset `c`, 0 to 7: bit 7 is the leftmost (44_display R144, D9; log 9). -/
def spriteBit (b : Byte) (c : Nat) : Bool := b.getLsbD (7 - c)

/-- The drawing so far: the display and the collision latch (44_display R142). -/
abbrev Drawing := Display × Bool

/-- One sprite pixel, at unreduced coordinates: where the sprite bit is set, the pixel is inverted, and the latch is set if
it was true (44_display R141, R142). -/
def drawPixel (col row : Nat) (bit : Bool) (g : Drawing) : Drawing :=
  if bit then
    let was := g.1.pixel (wrapCol col) (wrapRow row)
    (g.1.setPixel (wrapCol col) (wrapRow row) (!was), g.2 || was)
  else g

/-- One sprite row: columns `vx + 0` to `vx + 7` of display row `row` (44_display R141). -/
def drawRow (vx row : Nat) (b : Byte) (g : Drawing) : Drawing :=
  (List.range 8).foldl (fun g c => drawPixel (vx + c) row (spriteBit b c) g) g

/-- The whole sprite, its bytes from the top row down (44_display R141, R144). -/
def drawSprite (vx row : Nat) (g : Drawing) : List Byte → Drawing
  | [] => g
  | b :: bs => drawSprite vx (row + 1) (drawRow vx row b g) bs

/-! ### Keys -/

/-- The lowest-numbered pressed key, if any is pressed (45_timers_keys R151). -/
def State.lowestKey (s : State) : Option KeyNo := (List.finRange 16).find? fun k => s.key[k]

/-! ### The phases of a step around the instruction -/

/-- Phase 1's read: the word at `pc`, or nothing when `pc` is above 4094 (40 R90, 20_memory R52, R54). -/
def fetch (s : State) : Option Word := readWord s s.pc.toNat

/-- A timer counts down towards 0 and stays there (45_timers_keys R154). -/
def countDown (t : Byte) : Byte := if t = 0 then 0 else t - 1

/-- Phase 4, timer decay: the beep latch is set when the sound timer goes from 1 to 0, and never cleared here
(45_timers_keys R154, R155). -/
def State.decay (s : State) : State :=
  ((s.setDt (countDown s.dt)).setSt (countDown s.st)).setBeep (s.beep || s.st == 1)

/-- Phase 4 after phase 3: a fault ends the step before the decay (40 R90). -/
def finish : Host.Outcome State Fault Refusal → Host.Outcome State Fault Refusal
  | .next t => .next t.decay
  | .fault f => .fault f
  | .refused r => .refused r

/-- The step of 40 R90 over a given meaning of instructions: fetch, decode, dispatch and execute, timer decay. -/
def stepWith (run : Instr → State → Host.Outcome State Fault Refusal) (s : State) : Host.Outcome State Fault Refusal :=
  match fetch s with
  | none => raise (.addressOutOfRange (lowestOutside s.pc.toNat))
  | some w =>
    match decodeWord w with
    | none => raise (.unknownOpcode w)
    | some i => finish (run i s.advance)

/-! ### Placing an instruction where the next step fetches it -/

/-- `s` with word `w` stored at `pc`, big-endian; where `pc` is above 4094 no word can be fetched, and `pc` is first
brought to the reset entry 512. -/
def State.placeWord (s : State) (w : Word) : State :=
  let t := if s.pc.toNat ≤ 4094 then s else s.setPc 512
  t.setMem (t.mem.writeBytes t.pc.toNat (bytesOfWord w))

end Sys2Proof.Machine
end

