-- ==== Sys2Proof/Machine/Flags.lean ====
section
/-! DEFINITION. Every flag computation of the spec (spec/10_state.md R26, spec/42_alu.md R122), and the two orders in which
an instruction writes a result and a flag (42_alu R123). The collision flag is the latch of `drawSprite` (Machine/Ops.lean). -/

namespace Sys2Proof.Machine

/-- The flag as the full byte written to VF: exactly 0 or 1 (10_state R26). -/
def flagByte (f : Bool) : Byte := if f then 1 else 0

/-- Carry out of an addition: the unreduced sum is 256 or more (42_alu R122, R116). -/
def carryOut (a b : Byte) : Bool := decide (256 ≤ a.toNat + b.toNat)

/-- No borrow in `a - b`: the minuend is at least the subtrahend (42_alu R122, R117, R119). -/
def noBorrow (a b : Byte) : Bool := decide (b.toNat ≤ a.toNat)

/-- The bit a right shift by one moves out (42_alu R118). -/
def lowBit (a : Byte) : Bool := a.getLsbD 0

/-- The bit a left shift by one moves out (42_alu R120). -/
def highBit (a : Byte) : Bool := a.getLsbD 7

/-- Write the flag register VF = V[15] (10_state R22, R26). -/
def State.setFlag (s : State) (f : Bool) : State := s.setV Config.flagReg (flagByte f)

/-- Result first, flag second: for `x = 15` the flag remains (42_alu R123, D7; log 4). -/
def State.setResultThenFlag (s : State) (x : Reg) (r : Byte) (f : Bool) : State := (s.setV x r).setFlag f

/-- Flag first, result second: for `x = 15` the result remains (42_alu R123, D7; log 4). -/
def State.setFlagThenResult (s : State) (x : Reg) (r : Byte) (f : Bool) : State := (s.setFlag f).setV x r

end Sys2Proof.Machine
end

