-- ==== Sys2Proof/Machine/Operands.lean ====
section
/-! DEFINITION. Every operand form and addressing mode of the spec (spec/20_memory.md R58, spec/30_encoding.md R72). The
general registers are read with `State.getV`; the immediate `nn` is used as it stands, unsigned. -/

namespace Sys2Proof.Machine

/-- Absolute 12-bit: `nnn` zero-extended to 16 bits (20_memory R58, 30_encoding R72). -/
def absolute (nnn : Imm12) : Word := nnn.setWidth 16

/-- `V[0] + nnn` for Bnnn, not reduced modulo 4096 (40 R95). -/
def offsetByV0 (s : State) (nnn : Imm12) : Word := BitVec.setWidth 16 (s.getV 0) + absolute nnn

/-- Glyph address formation: `V[x] * 5`, the whole byte, no masking (43_index_memory R132). -/
def glyphAddress (b : Byte) : Word := BitVec.ofNat 16 (b.toNat * Config.glyphStride)

/-- `(I + V[x]) mod 65536` for Fx1E (43_index_memory R131). -/
def indexPlus (s : State) (x : Reg) : Word := s.ireg + BitVec.setWidth 16 (s.getV x)

/-- Index plus implicit offset: the base of the bytes at `I`, `I + 1`, ..., formed without wrap-around (20_memory R58). -/
def indexBase (s : State) : Nat := s.ireg.toNat

/-- The decimal digits of a byte, hundreds first (43_index_memory R133). -/
def decimalDigits (b : Byte) : List Byte :=
  [BitVec.ofNat 8 (b.toNat / 100), BitVec.ofNat 8 (b.toNat / 10 % 10), BitVec.ofNat 8 (b.toNat % 10)]

/-- The registers `V[0]` to `V[x]` in order (43_index_memory R134). -/
def regsUpTo (s : State) (x : Reg) : List Byte := s.v.toList.take (x.val + 1)

/-- The registers with `V[k]`, `k` from 0 to `x`, replaced by the byte at `I + k` (43_index_memory R135). -/
def regsFromMemory (s : State) (x : Reg) : Vector Byte 16 :=
  Vector.ofFn fun k => if k ≤ x then s.mem.read (indexBase s + k.val) else s.getV k

/-- A register's value as a key number: `none` above 15, with no masking (41_skips R104, D5; log 6). -/
def keyNumber (b : Byte) : Option KeyNo := if h : b.toNat < 16 then some ⟨b.toNat, h⟩ else none

/-- The sprite of `n` rows at `I`, top row first (44_display R141, R144). -/
def spriteRows (s : State) (n : Nibble) : List Byte := s.mem.readBytes (indexBase s) n.toNat

end Sys2Proof.Machine
end

