-- ==== Sys2Proof/Machine/Alu.lean ====
section
/-! DEFINITION. The meanings of the register load, arithmetic, logic, shift and random instructions
(spec/42_alu.md R110 to R123). Every operand is read before any register is written (R123). -/

namespace Sys2Proof.Machine

/-- 6xnn LD Vx, nn (R110). -/
def execLdImm (x : Reg) (nn : Byte) (s : State) : Host.Outcome State Fault Refusal := .next (s.setV x nn)

/-- 7xnn ADD Vx, nn: modulo 256, no flag (R111). -/
def execAddImm (x : Reg) (nn : Byte) (s : State) : Host.Outcome State Fault Refusal := .next (s.setV x (s.getV x + nn))

/-- 8xy0 LD Vx, Vy (R112). -/
def execLdReg (x y : Reg) (s : State) : Host.Outcome State Fault Refusal := .next (s.setV x (s.getV y))

/-- 8xy1 OR Vx, Vy: VF untouched (R113). -/
def execOr (x y : Reg) (s : State) : Host.Outcome State Fault Refusal := .next (s.setV x (s.getV x ||| s.getV y))

/-- 8xy2 AND Vx, Vy: VF untouched (R114). -/
def execAnd (x y : Reg) (s : State) : Host.Outcome State Fault Refusal := .next (s.setV x (s.getV x &&& s.getV y))

/-- 8xy3 XOR Vx, Vy: VF untouched (R115). -/
def execXor (x y : Reg) (s : State) : Host.Outcome State Fault Refusal := .next (s.setV x (s.getV x ^^^ s.getV y))

/-- 8xy4 ADD Vx, Vy: sum modulo 256, then the carry to VF (R116). -/
def execAddReg (x y : Reg) (s : State) : Host.Outcome State Fault Refusal :=
  .next (s.setResultThenFlag x (s.getV x + s.getV y) (carryOut (s.getV x) (s.getV y)))

/-- 8xy5 SUB Vx, Vy: `Vx - Vy` modulo 256, then no-borrow to VF (R117). -/
def execSub (x y : Reg) (s : State) : Host.Outcome State Fault Refusal :=
  .next (s.setResultThenFlag x (s.getV x - s.getV y) (noBorrow (s.getV x) (s.getV y)))

/-- 8xy6 SHR Vx: the low bit to VF, then `Vx >> 1`; the field `y` is ignored (R118). -/
def execShr (x _y : Reg) (s : State) : Host.Outcome State Fault Refusal :=
  .next (s.setFlagThenResult x (s.getV x >>> 1) (lowBit (s.getV x)))

/-- 8xy7 SUBN Vx, Vy: `Vy - Vx` modulo 256, then no-borrow to VF (R119). -/
def execSubn (x y : Reg) (s : State) : Host.Outcome State Fault Refusal :=
  .next (s.setResultThenFlag x (s.getV y - s.getV x) (noBorrow (s.getV y) (s.getV x)))

/-- 8xyE SHL Vx: the high bit to VF, then `Vx << 1` modulo 256; the field `y` is ignored (R120). -/
def execShl (x _y : Reg) (s : State) : Host.Outcome State Fault Refusal :=
  .next (s.setFlagThenResult x (s.getV x <<< 1) (highBit (s.getV x)))

/-- Cxnn RND Vx, nn: a fresh free value AND `nn` (R121, D10; log 3). -/
def execRnd (x : Reg) (nn : Byte) (s : State) : Host.Outcome State Fault Refusal :=
  .next ((s.setV x (Config.rand8 s.draws &&& nn)).setDraws (s.draws + 1))

end Sys2Proof.Machine
end

