-- ==== Sys2Proof/Machine/Control.lean ====
section
/-! DEFINITION. The meanings of the control-flow instructions (spec/40_step_and_control_flow.md R91 to R95). In every
meaning the state's `pc` is already `pc0 + 2`, as in the spec's rules (00_scope R12). -/

namespace Sys2Proof.Machine

/-- 0000 NOP: nothing (R91). -/
def execNop (s : State) : Host.Outcome State Fault Refusal := .next s

/-- 00EE RET: pop the return address into `pc`; with an empty stack, `StackUnderflow(pc0)` (R92). -/
def execRet (s : State) : Host.Outcome State Fault Refusal :=
  match s.pop with
  | none => raise (.stackUnderflow s.pc0)
  | some (w, t) => .next (t.setPc w)

/-- 1nnn JP (R93). -/
def execJp (nnn : Imm12) (s : State) : Host.Outcome State Fault Refusal := .next (s.setPc (absolute nnn))

/-- 2nnn CALL: push `pc0 + 2` and jump; with a full stack, `StackOverflow(pc0)` (R94). -/
def execCall (nnn : Imm12) (s : State) : Host.Outcome State Fault Refusal :=
  match s.push s.pc with
  | none => raise (.stackOverflow s.pc0)
  | some t => .next (t.setPc (absolute nnn))

/-- Bnnn JP V0 (R95). -/
def execJpV0 (nnn : Imm12) (s : State) : Host.Outcome State Fault Refusal := .next (s.setPc (offsetByV0 s nnn))

end Sys2Proof.Machine
end

