-- ==== Sys2Proof/Machine/Index.lean ====
section
/-! DEFINITION. The meanings of the index-register and memory-transfer instructions (spec/43_index_memory.md R130 to R136).
None changes `I` other than Annn, Fx1E and Fx29, and none writes a flag. -/

namespace Sys2Proof.Machine

/-- Annn LD I, nnn (R130). -/
def execLdI (nnn : Imm12) (s : State) : Host.Outcome State Fault Refusal := .next (s.setI (absolute nnn))

/-- Fx1E ADD I, Vx: modulo 65536, no flag (R131). -/
def execAddI (x : Reg) (s : State) : Host.Outcome State Fault Refusal := .next (s.setI (indexPlus s x))

/-- Fx29 LD F, Vx (R132). -/
def execLdF (x : Reg) (s : State) : Host.Outcome State Fault Refusal := .next (s.setI (glyphAddress (s.getV x)))

/-- Store bytes at `I` upward, or raise `AddressOutOfRange` and store none (R136, 20_memory R53). -/
def storeAtI (s : State) (bytes : List Byte) : Host.Outcome State Fault Refusal :=
  withBytesAtI s bytes.length (.next (s.setMem (s.mem.writeBytes (indexBase s) bytes)))

/-- Fx33 LD B, Vx: the three decimal digits at `I`, `I + 1`, `I + 2` (R133). -/
def execLdB (x : Reg) (s : State) : Host.Outcome State Fault Refusal := storeAtI s (decimalDigits (s.getV x))

/-- Fx55 LD [I], Vx: `V[0]` to `V[x]` at `I` upward (R134). -/
def execStRegs (x : Reg) (s : State) : Host.Outcome State Fault Refusal := storeAtI s (regsUpTo s x)

/-- Fx65 LD Vx, [I]: `V[0]` to `V[x]` from the bytes at `I` upward (R135). -/
def execLdRegs (x : Reg) (s : State) : Host.Outcome State Fault Refusal :=
  withBytesAtI s (x.val + 1) (.next (s.setRegs (regsFromMemory s x)))

end Sys2Proof.Machine
end

