-- ==== Sys2Proof/Machine/Screen.lean ====
section
/-! DEFINITION. The meanings of the display instructions (spec/44_display.md R140 to R144). -/

namespace Sys2Proof.Machine

/-- 00E0 CLS: every pixel false, VF untouched (R140). -/
def execCls (s : State) : Host.Outcome State Fault Refusal := .next (s.setDisp Display.clear)

/-- The sprite of Dxyn drawn over the display, with the collision latch clear at the start; `V[x]` and `V[y]` are latched
before VF is written (R141, R142). -/
def drawn (x y : Reg) (n : Nibble) (s : State) : Drawing :=
  drawSprite (s.getV x).toNat (s.getV y).toNat (s.disp, false) (spriteRows s n)

/-- Dxyn DRW Vx, Vy, n: XOR the sprite, then write the collision to VF once; `AddressOutOfRange` when a sprite byte lies
above 4095 (R141). -/
def execDrw (x y : Reg) (n : Nibble) (s : State) : Host.Outcome State Fault Refusal :=
  withBytesAtI s n.toNat (.next ((s.setDisp (drawn x y n s).1).setFlag (drawn x y n s).2))

end Sys2Proof.Machine
end

