-- ==== Sys2Proof/Machine/Skips.lean ====
section
/-! DEFINITION. The meanings of the conditional skips (spec/41_skips.md R100 to R106). -/

namespace Sys2Proof.Machine

/-- 3xnn SE Vx, nn (R100). -/
def execSeImm (x : Reg) (nn : Byte) (s : State) : Host.Outcome State Fault Refusal := .next (s.skipIf (s.getV x == nn))

/-- 4xnn SNE Vx, nn (R101). -/
def execSneImm (x : Reg) (nn : Byte) (s : State) : Host.Outcome State Fault Refusal := .next (s.skipIf (s.getV x != nn))

/-- 5xy0 SE Vx, Vy (R102). -/
def execSeReg (x y : Reg) (s : State) : Host.Outcome State Fault Refusal := .next (s.skipIf (s.getV x == s.getV y))

/-- 9xy0 SNE Vx, Vy (R103). -/
def execSneReg (x y : Reg) (s : State) : Host.Outcome State Fault Refusal := .next (s.skipIf (s.getV x != s.getV y))

/-- Skip on the state of key `V[x]`: pressed (`want` true) or not pressed; `KeyOperandOutOfRange(V[x])` above 15 (R104, R105). -/
def skipOnKey (x : Reg) (want : Bool) (s : State) : Host.Outcome State Fault Refusal :=
  match keyNumber (s.getV x) with
  | none => raise (.keyOperandOutOfRange (s.getV x))
  | some k => .next (s.skipIf (s.key[k] == want))

/-- Ex9E SKP Vx (R104). -/
def execSkp (x : Reg) (s : State) : Host.Outcome State Fault Refusal := skipOnKey x true s

/-- ExA1 SKNP Vx (R105). -/
def execSknp (x : Reg) (s : State) : Host.Outcome State Fault Refusal := skipOnKey x false s

end Sys2Proof.Machine
end

