-- ==== Sys2Proof/Machine/Timers.lean ====
section
/-! DEFINITION. The meanings of the timer and key-wait instructions (spec/45_timers_keys.md R150 to R153). -/

namespace Sys2Proof.Machine

/-- Fx07 LD Vx, DT: the timer as the previous step left it (R150). -/
def execLdVxDt (x : Reg) (s : State) : Host.Outcome State Fault Refusal := .next (s.setV x s.dt)

/-- Fx0A LD Vx, K: the lowest pressed key, or `pc` back to this instruction while none is pressed (R151). -/
def execLdVxK (x : Reg) (s : State) : Host.Outcome State Fault Refusal :=
  match s.lowestKey with
  | none => .next (s.setPc s.pc0)
  | some k => .next (s.setV x (BitVec.ofNat 8 k.val))

/-- Fx15 LD DT, Vx (R152). -/
def execLdDtVx (x : Reg) (s : State) : Host.Outcome State Fault Refusal := .next (s.setDt (s.getV x))

/-- Fx18 LD ST, Vx (R153). -/
def execLdStVx (x : Reg) (s : State) : Host.Outcome State Fault Refusal := .next (s.setSt (s.getV x))

end Sys2Proof.Machine
end

