-- ==== Sys2Proof/Machine/Step.lean ====
section
/-! DEFINITION. One step of the engine (spec/40_step_and_control_flow.md R90), and a state with a given instruction placed
where the step fetches. -/

namespace Sys2Proof.Machine

/-- `step`: fetch, decode, dispatch and execute, timer decay (40 R90). -/
def step (s : State) : Host.Outcome State Fault Refusal := stepWith exec s

/-- `s` with the table word of `nbits` bits stored at `pc` (see `State.placeWord`). -/
def State.withFetchWord (s : State) (nbits w : Nat) : State := s.placeWord (tableWord nbits w)

end Sys2Proof.Machine
end

