-- ==== Sys2Proof/Machine/HostOps.lean ====
section
/-! DEFINITION. The host's seven operations over the Machine State (spec/00_scope.md R10), each atomic and between steps
(R9): create and reset (spec/70_reset_and_hazards.md R190, R191), load (spec/20_memory.md R62), step, with the state a failing
step leaves (spec/60_exceptions.md R170), set_key, read_display and take_beep (60_exceptions R177 to R179). A host schedule is
a list of calls (60_exceptions R175). -/

namespace Sys2Proof.Machine

/-- An operation of the host (00_scope R10). -/
inductive HostCall where
  | create
  | reset
  | load (bytes : List Byte)
  | step
  | setKey (index : Nat) (pressed : Bool)
  | readDisplay
  | takeBeep
  deriving DecidableEq, Repr

/-- A condition raised by a host operation (60_exceptions R160). -/
inductive HostCondition where
  /-- Code 6: the payload of `len` bytes does not fit (R166). -/
  | romTooLarge (len : Nat)
  /-- Code 7: no key has this index (R167). -/
  | keyIndexOutOfRange (index : Nat)
  deriving DecidableEq, Repr

/-- What an operation returns to the host (00_scope R10). -/
inductive HostResult where
  | ok
  /-- `step` failed with a fault (60_exceptions R160). -/
  | fault (f : Fault)
  /-- `step` met an instruction without a meaning: no instruction of this model is without one. -/
  | refused (r : Refusal)
  /-- A host operation failed. -/
  | failed (c : HostCondition)
  /-- The view `read_display` returns: 2048 booleans, index `x + 64*y` (60_exceptions R178). -/
  | display (view : List Bool)
  /-- The value `take_beep` returns (60_exceptions R179). -/
  | beep (b : Bool)
  deriving DecidableEq, Repr

/-- The numeric code of a fault (60_exceptions R160, D12). -/
def Fault.code : Fault → Nat
  | .unknownOpcode _ => 1
  | .stackOverflow _ => 2
  | .stackUnderflow _ => 3
  | .addressOutOfRange _ => 4
  | .keyOperandOutOfRange _ => 5

/-- The numeric code of a host condition (60_exceptions R160, D12). -/
def HostCondition.code : HostCondition → Nat
  | .romTooLarge _ => 6
  | .keyIndexOutOfRange _ => 7

/-- `create` and `reset` give the reset state, whatever the state was (70 R190, R191). The model's own draw counter goes
on, so that a value drawn before a reset need not be drawn again after it (log 3). -/
def hostReset (s : State) : State := State.reset.setDraws s.draws

/-- `load(bytes)`: the bytes go to 512 upward and nothing else changes, or nothing at all changes (20_memory R62, D19). -/
def hostLoad (s : State) (bytes : List Byte) : HostResult × State :=
  if Config.maxRom < bytes.length then (.failed (.romTooLarge bytes.length), s)
  else (.ok, s.setMem (s.mem.writeBytes Config.progBase bytes))

/-- `step`, with the state R170 gives a failing step (60_exceptions R169 to R171). -/
def hostStep (s : State) : HostResult × State :=
  match Sys2Proof.Machine.step s with
  | .next t => (.ok, t)
  | .fault f => (.fault f, s.leftByFault)
  | .refused r => (.refused r, s)

/-- `set_key(index, pressed)` (60_exceptions R177). -/
def hostSetKey (s : State) (index : Nat) (pressed : Bool) : HostResult × State :=
  if h : index < 16 then (.ok, s.setKey ⟨index, h⟩ pressed) else (.failed (.keyIndexOutOfRange index), s)

/-- The row-major view of the display, index `x + 64*y` (60_exceptions R178). -/
def displayView (d : Display) : List Bool := d.toList.flatMap fun row => row.toList

/-- Perform one operation of the host: what it returns, and the state after it. -/
def perform (c : HostCall) (s : State) : HostResult × State :=
  match c with
  | .create => (.ok, hostReset s)
  | .reset => (.ok, hostReset s)
  | .load bytes => hostLoad s bytes
  | .step => hostStep s
  | .setKey index pressed => hostSetKey s index pressed
  | .readDisplay => (.display (displayView s.disp), s)
  | .takeBeep => (.beep s.beep, s.setBeep false)

/-- A host schedule: the operations one after another (60_exceptions R175). -/
def performAll : List HostCall → State → State
  | [], s => s
  | c :: cs, s => performAll cs (perform c s).2

end Sys2Proof.Machine
end

