-- ==== Sys2Proof/Safety.lean ====
section
/-! DEFINITION. What counts as a safe run: what a program must respect for an instruction to take effect
(spec/70_reset_and_hazards.md R195), which registers and bytes each instruction writes
(spec/10_state.md R20), the quiescent state (R197), and the invariant of the machine's own bounds
(spec/10_state.md R20, R25). -/

namespace Sys2Proof.Machine

/-- The condition under which an instruction takes effect: what R195 asks of a program for it, and nothing for the
instructions R195 asks nothing for. The state's `pc` is already `pc0 + 2`. -/
def Runs (i : Instr) (s : State) : Prop :=
  match i with
  | .ret => 0 < s.sp.val
  | .call _ => s.sp.val < 16
  | .drw _ _ n => n = 0 ∨ s.ireg.toNat + n.toNat ≤ 4096
  | .ldB _ => s.ireg.toNat + 3 ≤ 4096
  | .stRegs x => s.ireg.toNat + x.val + 1 ≤ 4096
  | .ldRegs x => s.ireg.toNat + x.val + 1 ≤ 4096
  | .skp x => (s.getV x).toNat ≤ 15
  | .sknp x => (s.getV x).toNat ≤ 15
  | .nop => True
  | .cls => True
  | .jp _ => True
  | .seImm _ _ => True
  | .sneImm _ _ => True
  | .seReg _ _ => True
  | .ldImm _ _ => True
  | .addImm _ _ => True
  | .ldReg _ _ => True
  | .orReg _ _ => True
  | .andReg _ _ => True
  | .xorReg _ _ => True
  | .addReg _ _ => True
  | .sub _ _ => True
  | .shr _ _ => True
  | .subn _ _ => True
  | .shl _ _ => True
  | .sneReg _ _ => True
  | .ldI _ => True
  | .jpV0 _ => True
  | .rnd _ _ => True
  | .ldVxDt _ => True
  | .ldVxK _ => True
  | .ldDtVx _ => True
  | .ldStVx _ => True
  | .addI _ => True
  | .ldF _ => True

/-- Which general registers an instruction writes (10_state R20, R26): its destination, and VF where it writes a flag. -/
def WritesReg (i : Instr) (r : Reg) : Prop :=
  match i with
  | .nop => False
  | .cls => False
  | .ret => False
  | .jp _ => False
  | .call _ => False
  | .seImm _ _ => False
  | .sneImm _ _ => False
  | .seReg _ _ => False
  | .ldImm x _ => r = x
  | .addImm x _ => r = x
  | .ldReg x _ => r = x
  | .orReg x _ => r = x
  | .andReg x _ => r = x
  | .xorReg x _ => r = x
  | .addReg x _ => r = x ∨ r = Config.flagReg
  | .sub x _ => r = x ∨ r = Config.flagReg
  | .shr x _ => r = x ∨ r = Config.flagReg
  | .subn x _ => r = x ∨ r = Config.flagReg
  | .shl x _ => r = x ∨ r = Config.flagReg
  | .sneReg _ _ => False
  | .ldI _ => False
  | .jpV0 _ => False
  | .rnd x _ => r = x
  | .drw _ _ _ => r = Config.flagReg
  | .skp _ => False
  | .sknp _ => False
  | .ldVxDt x => r = x
  | .ldVxK x => r = x
  | .ldDtVx _ => False
  | .ldStVx _ => False
  | .addI _ => False
  | .ldF _ => False
  | .ldB _ => False
  | .stRegs _ => False
  | .ldRegs x => r ≤ x

/-- How many bytes an instruction stores, at `indexBase s` upward (20_memory R50): Fx33 three, Fx55 `x + 1`, the others none. -/
def storeLength (i : Instr) : Nat :=
  match i with
  | .nop => 0
  | .cls => 0
  | .ret => 0
  | .jp _ => 0
  | .call _ => 0
  | .seImm _ _ => 0
  | .sneImm _ _ => 0
  | .seReg _ _ => 0
  | .ldImm _ _ => 0
  | .addImm _ _ => 0
  | .ldReg _ _ => 0
  | .orReg _ _ => 0
  | .andReg _ _ => 0
  | .xorReg _ _ => 0
  | .addReg _ _ => 0
  | .sub _ _ => 0
  | .shr _ _ => 0
  | .subn _ _ => 0
  | .shl _ _ => 0
  | .sneReg _ _ => 0
  | .ldI _ => 0
  | .jpV0 _ => 0
  | .rnd _ _ => 0
  | .drw _ _ _ => 0
  | .skp _ => 0
  | .sknp _ => 0
  | .ldVxDt _ => 0
  | .ldVxK _ => 0
  | .ldDtVx _ => 0
  | .ldStVx _ => 0
  | .addI _ => 0
  | .ldF _ => 0
  | .ldB _ => 3
  | .stRegs x => x.val + 1
  | .ldRegs _ => 0

/-- A step is safe when it returns `ok` (60_exceptions R160). -/
def StepOk (s : State) : Prop := ∃ t, step s = .next t

/-- A quiescent state: the word at `pc` is a jump to `pc` itself, and both timers are 0 (70 R197, D18). -/
def Quiescent (s : State) : Prop :=
  (∃ nnn, fetch s = some (encode (.jp nnn)) ∧ absolute nnn = s.pc) ∧ s.dt = 0 ∧ s.st = 0

/-- The bounds the machine keeps: memory has its canonical form (so it never shrinks or grows, 10_state R32), `pc` never
exceeds 4350, and every stack entry in use is at most 4096 (10_state R25). -/
def State.Inv (s : State) : Prop :=
  s.mem.wf = true ∧ s.pc.toNat ≤ 4350 ∧ ∀ (k : Nat) (hk : k < 16), k < s.sp.val → s.stack[k].toNat ≤ 4096

end Sys2Proof.Machine
end

