-- ==== Sys2Proof/Certificates/Slice0/Obligations.lean ====
section
/-! DEFINITION. The statements for the provers, from the numbered rules of spec/. In a statement about `exec` the state's
`pc` is `pc0 + 2`, as in the spec's rules (00_scope R12). A statement that says "decision D<n>" or "log <n>" rests, for that
clause, on a choice of the spec or of this model and not on the source. -/

open Sys2Proof Sys2Proof.Machine

/-! ### Encoding -/

/-- Every instruction decodes from its own encoding, as a word and as the first two bytes of any byte sequence
(30_encoding R70, R72, R75, R77). -/
def Obligations.DecodeEncodeRoundTrip : Prop :=
  ∀ (i : Instr) (rest : List Byte),
    decodeWord (encode i) = some i ∧ decode (bytesOfWord (encode i) ++ rest) = .ok (i, rest)

/-- No two words decode to the same instruction: a word that decodes is the encoding of what it decodes to. -/
def Obligations.EncodeDecodeInverse : Prop :=
  ∀ (w : Word) (i : Instr), decodeWord w = some i → encode i = w

/-- The words that decode to nothing are exactly the six groups of 30_encoding R76. -/
def Obligations.UnknownWordsAreTheSixGroups : Prop :=
  ∀ w : Word, decodeWord w = none ↔
    (nibble1 w = 0x0 ∧ w ≠ 0x0000 ∧ w ≠ 0x00E0 ∧ w ≠ 0x00EE) ∨
    (nibble1 w = 0x5 ∧ nibble4 w ≠ 0x0) ∨
    (nibble1 w = 0x8 ∧ (nibble4 w = 0x8 ∨ nibble4 w = 0x9 ∨ nibble4 w = 0xA ∨ nibble4 w = 0xB ∨ nibble4 w = 0xC ∨
      nibble4 w = 0xD ∨ nibble4 w = 0xF)) ∨
    (nibble1 w = 0x9 ∧ nibble4 w ≠ 0x0) ∨
    (nibble1 w = 0xE ∧ fieldNN w ≠ 0x9E ∧ fieldNN w ≠ 0xA1) ∨
    (nibble1 w = 0xF ∧ fieldNN w ≠ 0x07 ∧ fieldNN w ≠ 0x0A ∧ fieldNN w ≠ 0x15 ∧ fieldNN w ≠ 0x18 ∧ fieldNN w ≠ 0x1E ∧
      fieldNN w ≠ 0x29 ∧ fieldNN w ≠ 0x33 ∧ fieldNN w ≠ 0x55 ∧ fieldNN w ≠ 0x65)

/-- The worked encodings of 30_encoding R81. -/
def Obligations.WorkedEncodingsDecode : Prop :=
  decode [0x60, 0x05] = .ok (.ldImm 0 0x05, []) ∧ decode [0xA2, 0x0A] = .ok (.ldI 0x20A, []) ∧
    decode [0x22, 0x08] = .ok (.call 0x208, []) ∧ decode [0xE4, 0x9E] = .ok (.skp 4, []) ∧
    decode [0x60, 0x01] = .ok (.ldImm 0 1, []) ∧ wordOfBytes 0x60 0x05 = 0x6005 ∧ wordOfBytes 0xA2 0x0A = 0xA20A ∧
    wordOfBytes 0x22 0x08 = 0x2208 ∧ wordOfBytes 0xE4 0x9E = 0xE49E ∧ wordOfBytes 0x60 0x01 = 0x6001

/-! ### The step -/

/-- Fetch is big-endian at any parity of `pc`: the byte at `pc` is the high byte of the word, with `nibble1` and `nibble2`, and
the byte at `pc + 1` the low one, with `nibble3` and `nibble4` (20_memory R54; that an odd `pc` is legal is decision D13, log 10). -/
def Obligations.FetchIsBigEndian : Prop :=
  ∀ s : State, s.pc.toNat ≤ 4094 →
    ∃ w, fetch s = some w ∧
      w.toNat = (s.mem.read s.pc.toNat).toNat * 256 + (s.mem.read (s.pc.toNat + 1)).toNat ∧
      s.mem.read s.pc.toNat = (nibble1 w ++ nibble2 w : BitVec (4 + 4)) ∧
      s.mem.read (s.pc.toNat + 1) = (nibble3 w ++ nibble4 w : BitVec (4 + 4)) ∧
      s.mem.read (s.pc.toNat + 1) = fieldNN w

/-- A step from a `pc` above 4094 ends with `AddressOutOfRange(max(pc, 4096))`, with the state as it was, and does so again
(decisions D4, D6, D22). -/
def Obligations.FetchOutsideMemoryFaults : Prop :=
  ∀ s : State, 4094 < s.pc.toNat →
    step s = .fault (.addressOutOfRange (max s.pc.toNat 4096)) ∧
      hostStep s = (.fault (.addressOutOfRange (max s.pc.toNat 4096)), s)

/-- A fetched word that matches no row of the instruction table ends the step with `UnknownOpcode` of that word
(60_exceptions R161). -/
def Obligations.UnmatchedWordFaults : Prop :=
  ∀ (s : State) (w : Word), fetch s = some w → wellFormedWord w = false → step s = .fault (.unknownOpcode w)

/-- A step runs the decoded instruction: `exec` of it on the state with `pc` advanced by 2, then the timer decay, which a
fault ends before (40 R90). -/
def Obligations.StepRunsDecodedInstruction : Prop :=
  ∀ (s : State) (w : Word) (i : Instr), fetch s = some w → decodeWord w = some i →
    step s = match exec i { s with pc := s.pc + 2 } with
      | .next t => .next { t with
          dt := if t.dt = 0 then 0 else t.dt - 1
          st := if t.st = 0 then 0 else t.st - 1
          beep := if t.st = 1 then true else t.beep }
      | .fault f => .fault f
      | .refused r => .refused r

/-- Timer decay, phase 4 of every step that raises no fault: with `u` the state after the instruction, each timer above 0 is
one lower, a timer at 0 stays, and `beep` is set when the sound timer was exactly 1; nothing else changes (45 R154). -/
def Obligations.EveryOkStepDecaysTimers : Prop :=
  ∀ s t : State, step s = .next t →
    ∃ w i u, fetch s = some w ∧ decodeWord w = some i ∧ exec i { s with pc := s.pc + 2 } = .next u ∧
      t.dt.toNat = (if 0 < u.dt.toNat then u.dt.toNat - 1 else 0) ∧
      t.st.toNat = (if 0 < u.st.toNat then u.st.toNat - 1 else 0) ∧
      (t.beep = true ↔ u.beep = true ∨ u.st.toNat = 1) ∧
      t = { u with dt := t.dt, st := t.st, beep := t.beep }

/-! ### Control flow -/

/-- 0000 is a no-op: its step advances `pc` by 2, decays the timers and leaves everything else as before (40 R91). -/
def Obligations.NopOnlyAdvances : Prop :=
  decodeWord 0x0000 = some .nop ∧ (∀ s : State, exec .nop s = .next s) ∧
    ∀ s : State, fetch s = some 0x0000 →
      step s = .next { s with
        pc := s.pc + 2
        dt := if s.dt = 0 then 0 else s.dt - 1
        st := if s.st = 0 then 0 else s.st - 1
        beep := if s.st = 1 then true else s.beep }

/-- 1nnn sets `pc` to `nnn` and changes nothing else (40 R93). -/
def Obligations.JumpSetsPc : Prop :=
  ∀ (nnn : Imm12) (s : State),
    decodeWord (BitVec.ofNat 16 (0x1000 + nnn.toNat)) = some (.jp nnn) ∧
      exec (.jp nnn) s = .next { s with pc := BitVec.ofNat 16 nnn.toNat }

/-- Bnnn sets `pc` to `V[0] + nnn`, not reduced modulo 4096, and changes nothing else, VF included (40 R95). -/
def Obligations.JumpAddsV0 : Prop :=
  ∀ (nnn : Imm12) (s : State),
    decodeWord (BitVec.ofNat 16 (0xB000 + nnn.toNat)) = some (.jpV0 nnn) ∧
      ∃ t, exec (.jpV0 nnn) s = .next t ∧ t.pc.toNat = (s.getV 0).toNat + nnn.toNat ∧ t = { s with pc := t.pc }

/-- 2nnn with room pushes `pc` and jumps; with sixteen entries in use it ends with `StackOverflow(pc0)` (40 R94; that the
fault carries `pc0` is decision D12). -/
def Obligations.CallPushesReturnAddress : Prop :=
  ∀ (nnn : Imm12) (s : State),
    decodeWord (BitVec.ofNat 16 (0x2000 + nnn.toNat)) = some (.call nnn) ∧
    (∀ h : s.sp.val < 16, exec (.call nnn) s =
      .next { s with
        stack := s.stack.set s.sp.val s.pc h
        sp := ⟨s.sp.val + 1, Nat.succ_lt_succ h⟩
        pc := BitVec.ofNat 16 nnn.toNat }) ∧
    (s.sp.val = 16 → exec (.call nnn) s = .fault (.stackOverflow (s.pc - 2)))

/-- 00EE with an entry in use pops the newest into `pc`, leaving the stack's bits in place (decision D15, log 11); with none it
ends with `StackUnderflow(pc0)` (40 R92; that the fault carries `pc0` is decision D12). -/
def Obligations.ReturnPopsIntoPc : Prop :=
  decodeWord 0x00EE = some .ret ∧
  ∀ s : State,
    (∀ (n : Nat) (hn : n < 16), s.sp.val = n + 1 →
      exec .ret s = .next { s with pc := s.stack[n], sp := ⟨n, Nat.lt_succ_of_lt hn⟩ }) ∧
    (s.sp.val = 0 → exec .ret s = .fault (.stackUnderflow (s.pc - 2)))

/-- A call followed by a return resumes at the instruction after the call, with the stack pointer as before, for any state in
between with the stack the call left (40 R92, R94). That the pop leaves the stack's bits in place, which the equation of whole states
says too, is decision D15 (log 11). -/
def Obligations.ReturnUndoesCall : Prop :=
  ∀ (nnn : Imm12) (s t u : State), exec (.call nnn) s = .next t → u.stack = t.stack → u.sp = t.sp →
    exec .ret u = .next { u with pc := s.pc, sp := s.sp }

/-! ### Skips -/

/-- 3xnn and 4xnn skip the next word, by adding 2 to `pc`, when `V[x]` equals, or differs from, `nn`; nothing else changes
(41 R100, R101). -/
def Obligations.SkipOnImmediate : Prop :=
  ∀ (x : Reg) (nn : Byte) (s : State),
    decodeWord (BitVec.ofNat 16 (0x3000 + x.val * 256 + nn.toNat)) = some (.seImm x nn) ∧
    decodeWord (BitVec.ofNat 16 (0x4000 + x.val * 256 + nn.toNat)) = some (.sneImm x nn) ∧
    exec (.seImm x nn) s = .next (if s.getV x = nn then { s with pc := s.pc + 2 } else s) ∧
    exec (.sneImm x nn) s = .next (if s.getV x = nn then s else { s with pc := s.pc + 2 })

/-- 5xy0 and 9xy0 skip when `V[x]` equals, or differs from, `V[y]`, so 5xx0 always skips and 9xx0 never; nothing else changes
(41 R102, R103). -/
def Obligations.SkipOnRegisters : Prop :=
  ∀ (x y : Reg) (s : State),
    decodeWord (BitVec.ofNat 16 (0x5000 + x.val * 256 + y.val * 16)) = some (.seReg x y) ∧
    decodeWord (BitVec.ofNat 16 (0x9000 + x.val * 256 + y.val * 16)) = some (.sneReg x y) ∧
    exec (.seReg x y) s = .next (if s.getV x = s.getV y then { s with pc := s.pc + 2 } else s) ∧
    exec (.sneReg x y) s = .next (if s.getV x = s.getV y then s else { s with pc := s.pc + 2 }) ∧
    exec (.seReg x x) s = .next { s with pc := s.pc + 2 } ∧ exec (.sneReg x x) s = .next s

/-- Ex9E and ExA1 skip when key number `V[x]` is, or is not, pressed, and change nothing else (41 R104, R105); with `V[x]` above
15 they end with `KeyOperandOutOfRange(V[x])` (decision D5, log 6). -/
def Obligations.SkipOnKeyState : Prop :=
  ∀ (x : Reg) (s : State),
    decodeWord (BitVec.ofNat 16 (0xE09E + x.val * 256)) = some (.skp x) ∧
    decodeWord (BitVec.ofNat 16 (0xE0A1 + x.val * 256)) = some (.sknp x) ∧
    (∀ h : (s.getV x).toNat < 16,
      exec (.skp x) s = .next (if s.key[(s.getV x).toNat] = true then { s with pc := s.pc + 2 } else s) ∧
      exec (.sknp x) s = .next (if s.key[(s.getV x).toNat] = true then s else { s with pc := s.pc + 2 })) ∧
    (15 < (s.getV x).toNat →
      exec (.skp x) s = .fault (.keyOperandOutOfRange (s.getV x)) ∧
      exec (.sknp x) s = .fault (.keyOperandOutOfRange (s.getV x)))

/-! ### Register load, arithmetic, logic, shifts, random -/

/-- 6xnn sets register `x` to exactly `nn` and leaves all other registers, and everything else, unchanged (42 R110). -/
def Obligations.LoadImmediateSetsOneRegister : Prop :=
  ∀ (x : Reg) (nn : Byte) (s : State),
    decodeWord (BitVec.ofNat 16 (0x6000 + x.val * 256 + nn.toNat)) = some (.ldImm x nn) ∧
      ∃ t, exec (.ldImm x nn) s = .next t ∧ t.getV x = nn ∧ (∀ r, r ≠ x → t.getV r = s.getV r) ∧ t = { s with v := t.v }

/-- 7xnn adds `nn` modulo 256 and writes no carry: every other register, VF included, is unchanged (42 R111). -/
def Obligations.AddImmediateWrapsWithoutFlag : Prop :=
  ∀ (x : Reg) (nn : Byte) (s : State),
    decodeWord (BitVec.ofNat 16 (0x7000 + x.val * 256 + nn.toNat)) = some (.addImm x nn) ∧
      ∃ t, exec (.addImm x nn) s = .next t ∧ (t.getV x).toNat = ((s.getV x).toNat + nn.toNat) % 256 ∧
        (∀ r, r ≠ x → t.getV r = s.getV r) ∧ t = { s with v := t.v }

/-- 8xy0 copies `V[y]` to `V[x]` and changes nothing else (42 R112). -/
def Obligations.CopyRegister : Prop :=
  ∀ (x y : Reg) (s : State),
    decodeWord (BitVec.ofNat 16 (0x8000 + x.val * 256 + y.val * 16)) = some (.ldReg x y) ∧
      ∃ t, exec (.ldReg x y) s = .next t ∧ t.getV x = s.getV y ∧ (∀ r, r ≠ x → t.getV r = s.getV r) ∧ t = { s with v := t.v }

/-- 8xy1, 8xy2 and 8xy3 write the bitwise or, and, exclusive or of `V[x]` and `V[y]` to `V[x]` (42 R113 to R115); that VF and
everything else stays as it was is decision D8 (log 8). -/
def Obligations.LogicWritesOneRegister : Prop :=
  ∀ (x y : Reg) (s : State),
    decodeWord (BitVec.ofNat 16 (0x8001 + x.val * 256 + y.val * 16)) = some (.orReg x y) ∧
    decodeWord (BitVec.ofNat 16 (0x8002 + x.val * 256 + y.val * 16)) = some (.andReg x y) ∧
    decodeWord (BitVec.ofNat 16 (0x8003 + x.val * 256 + y.val * 16)) = some (.xorReg x y) ∧
    (∃ t, exec (.orReg x y) s = .next t ∧ (∀ k, (t.getV x).getLsbD k = ((s.getV x).getLsbD k || (s.getV y).getLsbD k)) ∧
      (∀ r, r ≠ x → t.getV r = s.getV r) ∧ t = { s with v := t.v }) ∧
    (∃ t, exec (.andReg x y) s = .next t ∧ (∀ k, (t.getV x).getLsbD k = ((s.getV x).getLsbD k && (s.getV y).getLsbD k)) ∧
      (∀ r, r ≠ x → t.getV r = s.getV r) ∧ t = { s with v := t.v }) ∧
    (∃ t, exec (.xorReg x y) s = .next t ∧ (∀ k, (t.getV x).getLsbD k = ((s.getV x).getLsbD k ^^ (s.getV y).getLsbD k)) ∧
      (∀ r, r ≠ x → t.getV r = s.getV r) ∧ t = { s with v := t.v })

/-- 8xy4: VF is 1 exactly when the unreduced sum is 256 or more, else 0, for every `x` and `y`; `V[x]` is the sum modulo 256
unless `x = 15`, where the flag remains (decision D7, log 4); nothing else changes (42 R116). -/
def Obligations.AddRegistersSetsCarry : Prop :=
  ∀ (x y : Reg) (s : State),
    decodeWord (BitVec.ofNat 16 (0x8004 + x.val * 256 + y.val * 16)) = some (.addReg x y) ∧
      ∃ t, exec (.addReg x y) s = .next t ∧
        t.getV 15 = (if 256 ≤ (s.getV x).toNat + (s.getV y).toNat then 1 else 0) ∧
        (x ≠ 15 → (t.getV x).toNat = ((s.getV x).toNat + (s.getV y).toNat) % 256) ∧
        (∀ r, r ≠ x → r ≠ 15 → t.getV r = s.getV r) ∧ t = { s with v := t.v }

/-- 8xy5 and 8xy7 subtract modulo 256, `V[x] - V[y]` and `V[y] - V[x]`, into `V[x]`, with VF 1 exactly when the minuend is at
least the subtrahend; for `x = 15` the flag remains (decision D7, log 4); nothing else changes (42 R117, R119). -/
def Obligations.SubtractSetsNoBorrow : Prop :=
  ∀ (x y : Reg) (s : State),
    decodeWord (BitVec.ofNat 16 (0x8005 + x.val * 256 + y.val * 16)) = some (.sub x y) ∧
    decodeWord (BitVec.ofNat 16 (0x8007 + x.val * 256 + y.val * 16)) = some (.subn x y) ∧
    (∃ t, exec (.sub x y) s = .next t ∧
      t.getV 15 = (if (s.getV y).toNat ≤ (s.getV x).toNat then 1 else 0) ∧
      (x ≠ 15 → ((t.getV x).toNat : Int) = ((s.getV x).toNat - (s.getV y).toNat : Int) % 256) ∧
      (∀ r, r ≠ x → r ≠ 15 → t.getV r = s.getV r) ∧ t = { s with v := t.v }) ∧
    (∃ t, exec (.subn x y) s = .next t ∧
      t.getV 15 = (if (s.getV x).toNat ≤ (s.getV y).toNat then 1 else 0) ∧
      (x ≠ 15 → ((t.getV x).toNat : Int) = ((s.getV y).toNat - (s.getV x).toNat : Int) % 256) ∧
      (∀ r, r ≠ x → r ≠ 15 → t.getV r = s.getV r) ∧ t = { s with v := t.v })

/-- 8xy6 and 8xyE shift `V[x]` by one in place, whatever `y` is, with the bit shifted out in VF; for `x = 15` the shifted value
remains (decision D7, log 4); nothing else changes (42 R118, R120). -/
def Obligations.ShiftSetsBitShiftedOut : Prop :=
  ∀ (x y : Reg) (s : State),
    decodeWord (BitVec.ofNat 16 (0x8006 + x.val * 256 + y.val * 16)) = some (.shr x y) ∧
    decodeWord (BitVec.ofNat 16 (0x800E + x.val * 256 + y.val * 16)) = some (.shl x y) ∧
    (∃ t, exec (.shr x y) s = .next t ∧ (t.getV x).toNat = (s.getV x).toNat / 2 ∧
      (x ≠ 15 → (t.getV 15).toNat = (s.getV x).toNat % 2) ∧
      (∀ r, r ≠ x → r ≠ 15 → t.getV r = s.getV r) ∧ t = { s with v := t.v }) ∧
    (∃ t, exec (.shl x y) s = .next t ∧ (t.getV x).toNat = (s.getV x).toNat * 2 % 256 ∧
      (x ≠ 15 → (t.getV 15).toNat = (s.getV x).toNat / 128) ∧
      (∀ r, r ≠ x → r ≠ 15 → t.getV r = s.getV r) ∧ t = { s with v := t.v })

/-- Cxnn writes a fresh free value AND `nn` to `V[x]`: the result is at most `nn`, has a 0 wherever `nn` has one, and is 0 for
`nn = 0`, whatever the old `V[x]` was; nothing else of the machine changes (42 R121; the free value is decision D10, log 3, and the
counter `draws` is the model's own). -/
def Obligations.RandomIsMaskedFreshDraw : Prop :=
  ∀ (x : Reg) (nn : Byte) (s : State),
    decodeWord (BitVec.ofNat 16 (0xC000 + x.val * 256 + nn.toNat)) = some (.rnd x nn) ∧
      ∃ t, exec (.rnd x nn) s = .next t ∧ t.getV x = Config.rand8 s.draws &&& nn ∧ t.draws = s.draws + 1 ∧
        (t.getV x).toNat ≤ nn.toNat ∧ (∀ k, nn.getLsbD k = false → (t.getV x).getLsbD k = false) ∧
        (nn = 0 → t.getV x = 0) ∧
        (∀ r, r ≠ x → t.getV r = s.getV r) ∧ t = { s with v := t.v, draws := t.draws }

/-! ### Index register and memory transfers -/

/-- Annn sets `I` to `nnn` and changes nothing else (43 R130). -/
def Obligations.LoadIndexSetsI : Prop :=
  ∀ (nnn : Imm12) (s : State),
    decodeWord (BitVec.ofNat 16 (0xA000 + nnn.toNat)) = some (.ldI nnn) ∧
      exec (.ldI nnn) s = .next { s with ireg := BitVec.ofNat 16 nnn.toNat }

/-- Fx1E adds `V[x]` to `I` modulo 65536 (43 R131); that VF and everything else stays as it was is decision D8 (log 8). -/
def Obligations.AddToIndexWraps : Prop :=
  ∀ (x : Reg) (s : State),
    decodeWord (BitVec.ofNat 16 (0xF01E + x.val * 256)) = some (.addI x) ∧
      ∃ t, exec (.addI x) s = .next t ∧ t.ireg.toNat = (s.ireg.toNat + (s.getV x).toNat) % 65536 ∧
        t = { s with ireg := t.ireg }

/-- Fx29 sets `I` to five times the whole byte `V[x]` and changes nothing else (43 R132). -/
def Obligations.GlyphAddressIsFiveTimes : Prop :=
  ∀ (x : Reg) (s : State),
    decodeWord (BitVec.ofNat 16 (0xF029 + x.val * 256)) = some (.ldF x) ∧
      ∃ t, exec (.ldF x) s = .next t ∧ t.ireg.toNat = (s.getV x).toNat * 5 ∧ t = { s with ireg := t.ireg }

/-- Fx33 with `I ≤ 4093` stores the hundreds, tens and ones of `V[x]` at `I`, `I + 1`, `I + 2`; every other byte and everything
else, `I` included, stays as it was (43 R133; the frame is decision D8, log 8). -/
def Obligations.DecimalDigitsStored : Prop :=
  ∀ (x : Reg) (s : State), s.mem.wf = true → s.ireg.toNat ≤ 4093 →
    decodeWord (BitVec.ofNat 16 (0xF033 + x.val * 256)) = some (.ldB x) ∧
    ∃ t, exec (.ldB x) s = .next t ∧
      (t.mem.read (indexBase s)).toNat = (s.getV x).toNat / 100 ∧
      (t.mem.read (indexBase s + 1)).toNat = (s.getV x).toNat / 10 % 10 ∧
      (t.mem.read (indexBase s + 2)).toNat = (s.getV x).toNat % 10 ∧
      (∀ a, (a < indexBase s ∨ indexBase s + 3 ≤ a) → t.mem.read a = s.mem.read a) ∧
      indexBase s = s.ireg.toNat ∧ t = { s with mem := t.mem }

/-- Fx55 with `I + x ≤ 4095` stores `V[0]` to `V[x]` at `I` upward; every other byte and everything else, `I` included, stays as
it was (43 R134; the frame is decision D8, log 8). -/
def Obligations.RegistersStored : Prop :=
  ∀ (x : Reg) (s : State), s.mem.wf = true → s.ireg.toNat + x.val ≤ 4095 →
    decodeWord (BitVec.ofNat 16 (0xF055 + x.val * 256)) = some (.stRegs x) ∧
    ∃ t, exec (.stRegs x) s = .next t ∧
      (∀ r, r ≤ x → t.mem.read (indexBase s + r.val) = s.getV r) ∧
      (∀ a, (a < indexBase s ∨ indexBase s + x.val < a) → t.mem.read a = s.mem.read a) ∧
      indexBase s = s.ireg.toNat ∧ t = { s with mem := t.mem }

/-- Fx65 with `I + x ≤ 4095` loads `V[0]` to `V[x]` from `I` upward; the registers above `V[x]` and everything else, memory and `I`
included, stay as they were (43 R135; the frame is decision D8, log 8). -/
def Obligations.RegistersLoaded : Prop :=
  ∀ (x : Reg) (s : State), s.ireg.toNat + x.val ≤ 4095 →
    decodeWord (BitVec.ofNat 16 (0xF065 + x.val * 256)) = some (.ldRegs x) ∧
    ∃ t, exec (.ldRegs x) s = .next t ∧
      (∀ r, r ≤ x → t.getV r = s.mem.read (s.ireg.toNat + r.val)) ∧
      (∀ r, x < r → t.getV r = s.getV r) ∧ t = { s with v := t.v }

/-- An instruction that would touch a byte above address 4095 ends with `AddressOutOfRange(max(I, 4096))` (decisions D4, D22,
log 5). -/
def Obligations.AccessOutsideMemoryFaults : Prop :=
  ∀ (x y : Reg) (n : Nibble) (s : State),
    (n ≠ 0 → 4095 < s.ireg.toNat + n.toNat - 1 →
      exec (.drw x y n) s = .fault (.addressOutOfRange (max s.ireg.toNat 4096))) ∧
    (4095 < s.ireg.toNat + 2 → exec (.ldB x) s = .fault (.addressOutOfRange (max s.ireg.toNat 4096))) ∧
    (4095 < s.ireg.toNat + x.val → exec (.stRegs x) s = .fault (.addressOutOfRange (max s.ireg.toNat 4096))) ∧
    (4095 < s.ireg.toNat + x.val → exec (.ldRegs x) s = .fault (.addressOutOfRange (max s.ireg.toNat 4096)))

/-- Fx55 followed, with memory and `I` as it left them, by Fx65 with the same `x` restores `V[0]` to `V[x]` (43 R135; that `I` and the registers stay as they were is decision D8, log 8). -/
def Obligations.LoadUndoesStore : Prop :=
  ∀ (x : Reg) (s t u : State), s.mem.wf = true → exec (.stRegs x) s = .next t → u.mem = t.mem → u.ireg = t.ireg →
    ∃ w, exec (.ldRegs x) u = .next w ∧ ∀ r, r ≤ x → w.getV r = s.getV r

/-- A byte stored by one step is what a later fetch reads: after Fx55 any state with that memory fetches the stored registers,
two at a time, as instruction words (20_memory R61, decision D14). -/
def Obligations.StoreVisibleToFetch : Prop :=
  ∀ (x r r' : Reg) (s t u : State), s.mem.wf = true → exec (.stRegs x) s = .next t → u.mem = t.mem →
    r'.val = r.val + 1 → r' ≤ x → u.pc.toNat = s.ireg.toNat + r.val →
    fetch u = some (BitVec.ofNat 16 ((s.getV r).toNat * 256 + (s.getV r').toNat))

/-! ### Display -/

/-- 00E0 makes every pixel false and changes nothing else, VF included (44 R140). -/
def Obligations.ClearDisplay : Prop :=
  decodeWord 0x00E0 = some .cls ∧
  ∀ s : State, ∃ t, exec .cls s = .next t ∧ (∀ col row, t.disp.pixel col row = false) ∧ t = { s with disp := t.disp }

/-- Dxyn with its sprite inside memory inverts exactly the pixels under set sprite bits, column `V[x] + c` modulo 64 and row
`V[y] + k` modulo 32 for row byte `k` and column offset `c`, and writes to VF 1 if any of them was set, else 0; nothing else changes
(44 R141 to R143). That bit 7 is the leftmost column is decision D9 (log 9), and that nothing else changes, `I` included, is decision D8
(log 8). -/
def Obligations.DrawInvertsSpritePixels : Prop :=
  ∀ (x y : Reg) (n : Nibble) (s : State), (n = 0 ∨ s.ireg.toNat + n.toNat - 1 ≤ 4095) →
    decodeWord (BitVec.ofNat 16 (0xD000 + x.val * 256 + y.val * 16 + n.toNat)) = some (.drw x y n) ∧
    ∃ t, exec (.drw x y n) s = .next t ∧
      (∀ col row, t.disp.pixel col row ≠ s.disp.pixel col row ↔
        ∃ k c, k < n.toNat ∧ c < 8 ∧ (s.mem.read (s.ireg.toNat + k)).getLsbD (7 - c) = true ∧
          ((s.getV x).toNat + c) % 64 = col.val ∧ ((s.getV y).toNat + k) % 32 = row.val) ∧
      ((∃ col row, s.disp.pixel col row = true ∧ t.disp.pixel col row = false) → t.getV 15 = 1) ∧
      ((¬ ∃ col row, s.disp.pixel col row = true ∧ t.disp.pixel col row = false) → t.getV 15 = 0) ∧
      (∀ r, r ≠ 15 → t.getV r = s.getV r) ∧ t = { s with disp := t.disp, v := t.v }

/-- Drawing a sprite twice at the same position restores the display, and the second draw's flag tells the second draw's own
collisions: 1 exactly when the first draw set a pixel (44 R142; `x` and `y` are not the flag register, which the first draw writes). That the first draw leaves memory and `I` as they were is
decision D8 (log 8). -/
def Obligations.DrawTwiceRestoresDisplay : Prop :=
  ∀ (x y : Reg) (n : Nibble) (s t u : State), x ≠ 15 → y ≠ 15 → exec (.drw x y n) s = .next t →
    u = { t with pc := u.pc } →
    ∃ w, exec (.drw x y n) u = .next w ∧ w.disp = s.disp ∧
      w.getV 15 = (if ∃ col row, s.disp.pixel col row = false ∧ t.disp.pixel col row = true then 1 else 0)

/-! ### Timers and keys -/

/-- Fx07 reads the delay timer and changes nothing else; the decay of its step comes after the read (45 R150). -/
def Obligations.ReadDelayTimer : Prop :=
  ∀ (x : Reg) (s : State),
    decodeWord (BitVec.ofNat 16 (0xF007 + x.val * 256)) = some (.ldVxDt x) ∧
      (∃ t, exec (.ldVxDt x) s = .next t ∧ t.getV x = s.dt ∧ (∀ r, r ≠ x → t.getV r = s.getV r) ∧ t = { s with v := t.v }) ∧
      (fetch s = some (BitVec.ofNat 16 (0xF007 + x.val * 256)) →
        ∃ t, step s = .next t ∧ t.getV x = s.dt ∧ t.dt.toNat = s.dt.toNat - 1)

/-- Fx0A with no key pressed moves `pc` back by 2 and changes nothing else; with a key pressed it writes the lowest pressed key's
index to `V[x]` and changes nothing else (45 R151). -/
def Obligations.WaitForKey : Prop :=
  ∀ (x : Reg) (s : State),
    decodeWord (BitVec.ofNat 16 (0xF00A + x.val * 256)) = some (.ldVxK x) ∧
    ((∀ k : KeyNo, s.key[k] = false) → exec (.ldVxK x) s = .next { s with pc := s.pc - 2 }) ∧
    (∀ k : KeyNo, s.key[k] = true → (∀ j : KeyNo, j < k → s.key[j] = false) →
      ∃ t, exec (.ldVxK x) s = .next t ∧ (t.getV x).toNat = k.val ∧ (∀ r, r ≠ x → t.getV r = s.getV r) ∧
        t = { s with v := t.v })

/-- Fx15 and Fx18 load the delay and the sound timer from `V[x]` and change nothing else, `beep` included (45 R152, R153). -/
def Obligations.LoadTimers : Prop :=
  ∀ (x : Reg) (s : State),
    decodeWord (BitVec.ofNat 16 (0xF015 + x.val * 256)) = some (.ldDtVx x) ∧
    decodeWord (BitVec.ofNat 16 (0xF018 + x.val * 256)) = some (.ldStVx x) ∧
    exec (.ldDtVx x) s = .next { s with dt := s.getV x } ∧ exec (.ldStVx x) s = .next { s with st := s.getV x }

/-- The same step's decay already counts a timer that Fx15 or Fx18 loads: after the step it holds `V[x] - 1`, or 0 for 0, and
`beep` is set by an Fx18 with `V[x] = 1` (45 R152 to R155, an inference of the spec from R154). -/
def Obligations.LoadedTimerDecaysAtOnce : Prop :=
  ∀ (x : Reg) (s : State),
    (fetch s = some (BitVec.ofNat 16 (0xF015 + x.val * 256)) →
      ∃ t, step s = .next t ∧ t.dt.toNat = (s.getV x).toNat - 1) ∧
    (fetch s = some (BitVec.ofNat 16 (0xF018 + x.val * 256)) →
      ∃ t, step s = .next t ∧ t.st.toNat = (s.getV x).toNat - 1 ∧
        (t.beep = true ↔ s.beep = true ∨ (s.getV x).toNat = 1))

/-- A step never clears `beep`, and sets it only when the sound timer ends the step at 0, after holding 1 before the step or being
loaded with 1 by Fx18 in it (45 R155). -/
def Obligations.BeepLatchedUntilHostTakesIt : Prop :=
  ∀ s t : State, step s = .next t →
    (s.beep = true → t.beep = true) ∧
    (t.beep = true → s.beep = false →
      t.st = 0 ∧ (s.st = 1 ∨ ∃ x : Reg, fetch s = some (BitVec.ofNat 16 (0xF018 + x.val * 256)) ∧ s.getV x = 1))

/-! ### Whole-machine rules -/

/-- Every way `pc` changes (the table of 10_state R24): fetch adds 2; a skip whose condition holds adds a further 2; 1nnn and
2nnn set it to `nnn`, Bnnn to `V[0] + nnn`, 00EE to the popped entry; Fx0A with no key pressed takes 2 back; no other instruction and no
timer decay moves it; the host moves it by `create` and `reset` alone, to 512. -/
def Obligations.OnlyListedCausesMovePc : Prop :=
  (∀ (i : Instr) (s t : State), exec i s = .next t →
    match i with
    | .seImm x nn => t.pc = if s.getV x = nn then s.pc + 2 else s.pc
    | .sneImm x nn => t.pc = if s.getV x = nn then s.pc else s.pc + 2
    | .seReg x y => t.pc = if s.getV x = s.getV y then s.pc + 2 else s.pc
    | .sneReg x y => t.pc = if s.getV x = s.getV y then s.pc else s.pc + 2
    | .skp x => t.pc = if s.key[(s.getV x).toNat]? = some true then s.pc + 2 else s.pc
    | .sknp x => t.pc = if s.key[(s.getV x).toNat]? = some true then s.pc else s.pc + 2
    | .jp nnn => t.pc.toNat = nnn.toNat
    | .call nnn => t.pc.toNat = nnn.toNat
    | .jpV0 nnn => t.pc.toNat = (s.getV 0).toNat + nnn.toNat
    | .ret => ∃ n : Fin 16, s.sp.val = n.val + 1 ∧ t.pc = s.stack[n]
    | .ldVxK _ => t.pc = if ∀ k : KeyNo, s.key[k] = false then s.pc - 2 else s.pc
    | _ => t.pc = s.pc) ∧
  (∀ s t : State, step s = .next t →
    ∃ w i u, fetch s = some w ∧ decodeWord w = some i ∧ exec i { s with pc := s.pc + 2 } = .next u ∧ t.pc = u.pc) ∧
  (∀ s : State, (perform .create s).2.pc = 512 ∧ (perform .reset s).2.pc = 512) ∧
  (∀ (bytes : List Byte) (k : Nat) (b : Bool) (s : State), (perform (.load bytes) s).2.pc = s.pc ∧
    (perform (.setKey k b) s).2.pc = s.pc ∧ (perform .readDisplay s).2.pc = s.pc ∧ (perform .takeBeep s).2.pc = s.pc)

/-- Each of the eleven elements of the state is changed, after fetch and before the decay, by the instructions that the "written by"
column of 10_state R20 lists for it and by no other: memory by Fx33 and Fx55, `pc` by 00EE, 1nnn, 2nnn, Bnnn, the six skips and Fx0A, a
general register by those that `WritesReg` lists for it, `I` by Annn, Fx1E and Fx29, the stack by 2nnn, `sp` by 2nnn and 00EE, `DT` by Fx15,
`ST` by Fx18, the display by 00E0 and Dxyn, and the keys and `beep` by none; that a row lists all its instruction changes is decision D8
(log 8). The model's own counter `draws` is changed by Cxnn alone (log 3, DESIGN CHOICE). -/
def Obligations.ElementsWrittenOnlyByTheirInstructions : Prop :=
  ∀ (i : Instr) (s t : State), exec i s = .next t →
    (t.mem ≠ s.mem → ∃ x, i = .ldB x ∨ i = .stRegs x) ∧
    (t.pc ≠ s.pc → i = .ret ∨ (∃ nnn, i = .jp nnn ∨ i = .call nnn ∨ i = .jpV0 nnn) ∨
      (∃ x nn, i = .seImm x nn ∨ i = .sneImm x nn) ∨ (∃ x y, i = .seReg x y ∨ i = .sneReg x y) ∨
      ∃ x, i = .skp x ∨ i = .sknp x ∨ i = .ldVxK x) ∧
    (∀ r, t.getV r ≠ s.getV r → WritesReg i r) ∧
    (t.ireg ≠ s.ireg → (∃ nnn, i = .ldI nnn) ∨ ∃ x, i = .addI x ∨ i = .ldF x) ∧
    (t.stack ≠ s.stack → ∃ nnn, i = .call nnn) ∧
    (t.sp ≠ s.sp → i = .ret ∨ ∃ nnn, i = .call nnn) ∧
    (t.dt ≠ s.dt → ∃ x, i = .ldDtVx x) ∧
    (t.st ≠ s.st → ∃ x, i = .ldStVx x) ∧
    (t.disp ≠ s.disp → i = .cls ∨ ∃ x y n, i = .drw x y n) ∧
    (t.draws ≠ s.draws → ∃ x nn, i = .rnd x nn) ∧
    t.key = s.key ∧ t.beep = s.beep

/-- A general register changes only by an instruction that writes it: its destination, or VF where it writes a flag
(10_state R26, 42 R122; the frame is decision D8, log 8). -/
def Obligations.RegistersChangeOnlyByTheirWriters : Prop :=
  ∀ (i : Instr) (s t : State) (r : Reg), exec i s = .next t → ¬ WritesReg i r → t.getV r = s.getV r

/-- Every byte outside those an instruction stores, `storeLength i` bytes at `indexBase s` upward, reads as before; so an
instruction that stores none leaves all of memory (20_memory R50, R57). -/
def Obligations.MemoryChangesOnlyAtStoredBytes : Prop :=
  ∀ (i : Instr) (s t : State) (a : Nat), s.mem.wf = true → exec i s = .next t →
    (a < indexBase s ∨ indexBase s + storeLength i ≤ a) → t.mem.read a = s.mem.read a

/-- An instruction answers a next state exactly where what 70 R195 asks of a program for it holds; otherwise it answers a fault,
and never a refusal. Each fault comes only from the instructions 60 R168 lists for it. -/
def Obligations.InstructionsRunOrRaiseTheirFault : Prop :=
  (∀ (i : Instr) (s : State), Runs i s → ∃ t, exec i s = .next t) ∧
  (∀ (i : Instr) (s : State), ¬ Runs i s → ∃ f, exec i s = .fault f) ∧
  (∀ (i : Instr) (s : State) (f : Fault), exec i s = .fault f →
    match f with
    | .unknownOpcode _ => False
    | .stackOverflow _ => ∃ nnn, i = .call nnn
    | .stackUnderflow _ => i = .ret
    | .addressOutOfRange _ => (∃ x y n, i = .drw x y n) ∨ ∃ x, i = .ldB x ∨ i = .stRegs x ∨ i = .ldRegs x
    | .keyOperandOutOfRange _ => ∃ x, i = .skp x ∨ i = .sknp x)

/-- A step is total: its result is `ok` with the next state, or one fault (40 R96), never a refusal. -/
def Obligations.StepIsOkOrFault : Prop :=
  ∀ s : State, (∃ t, step s = .next t) ∨ ∃ f, step s = .fault f

/-- The step keeps the machine's bounds: memory in canonical form, `pc` at most 4350, and every return address in use at most
4096 (10_state R25, an inference of the spec, and R32). -/
def Obligations.StepKeepsInvariant : Prop :=
  ∀ s t : State, s.Inv → step s = .next t → t.Inv

/-- Every operation of the host keeps the same bounds, a failing step among them, and so does every schedule of operations
(60 R175, R170). -/
def Obligations.HostScheduleKeepsInvariant : Prop :=
  ∀ (calls : List HostCall) (s : State), s.Inv → (performAll calls s).Inv

/-- The reset state is within the machine's bounds. -/
def Obligations.ResetMeetsInvariant : Prop := State.reset.Inv

/-! ### Reset, load and the host -/

/-- `create` and `reset` leave the glyph table at 0 to 79, zeros in the rest of memory, `pc` 512 and every pixel false, whatever
the state was (10_state R35). The other elements have the values of `State.reset` (decision D2, log 2), and the model's own counter `draws`
goes on as it was (log 3, DESIGN CHOICE). -/
def Obligations.ResetRestoresMemoryPcDisplay : Prop :=
  ∀ s : State,
    perform .create s = perform .reset s ∧ (perform .reset s).2 = { State.reset with draws := s.draws } ∧
    (∀ a, a < 80 → (perform .reset s).2.mem.read a = Config.glyph a) ∧
    (∀ a, 80 ≤ a → a ≤ 4095 → (perform .reset s).2.mem.read a = 0) ∧
    (perform .reset s).2.pc.toNat = 512 ∧ (∀ col row, (perform .reset s).2.disp.pixel col row = false) ∧
    (∀ a, a < 4096 → State.reset.mem.read a = (perform .reset s).2.mem.read a) ∧ State.reset.pc.toNat = 512

/-- `create` and `reset` leave every register, `I`, the stack, `sp` and both timers 0, no key pressed and `beep` false (10_state R36; all
but `V[0]` and `sp` are decision D2, log 2). -/
def Obligations.ResetZeroesTheRest : Prop :=
  ∀ s : State, ∃ t, perform .create s = (.ok, t) ∧ perform .reset s = (.ok, t) ∧
    (∀ r, t.getV r = 0) ∧ t.ireg = 0 ∧ (∀ k : Fin 16, t.stack[k] = 0) ∧ t.sp.val = 0 ∧ t.dt = 0 ∧ t.st = 0 ∧ (∀ k : KeyNo, t.key[k] = false) ∧ t.beep = false

/-- `load` of at most 3584 bytes writes byte `k` at `512 + k` and changes nothing else; a longer payload is refused with `RomTooLarge`
and changes nothing (20_memory R62; what `load` leaves alone is decision D19, log 12). -/
def Obligations.LoadWritesPayloadOrNothing : Prop :=
  ∀ (bytes : List Byte) (s : State), s.mem.wf = true →
    (bytes.length ≤ 3584 → ∃ t, perform (.load bytes) s = (.ok, t) ∧
      (∀ k b, bytes[k]? = some b → t.mem.read (512 + k) = b) ∧
      (∀ a, (a < 512 ∨ 512 + bytes.length ≤ a) → t.mem.read a = s.mem.read a) ∧ t = { s with mem := t.mem }) ∧
    (3584 < bytes.length → perform (.load bytes) s = (.failed (.romTooLarge bytes.length), s))

/-- `set_key` sets one key state and changes nothing else, or is refused with `KeyIndexOutOfRange` and changes nothing (60 R177,
decision D23, log 12). -/
def Obligations.SetKeySetsOneKey : Prop :=
  ∀ (index : Nat) (pressed : Bool) (s : State),
    (∀ h : index < 16, ∃ t, perform (.setKey index pressed) s = (.ok, t) ∧
      (∀ k : KeyNo, t.key[k] = if k = ⟨index, h⟩ then pressed else s.key[k]) ∧ t = { s with key := t.key }) ∧
    (16 ≤ index → perform (.setKey index pressed) s = (.failed (.keyIndexOutOfRange index), s))

/-- `read_display` returns the 2048 booleans of the display, row-major, index `x + 64*y`, and changes no state (60 R178). -/
def Obligations.ReadDisplayIsRowMajor : Prop :=
  ∀ s : State, ∃ view : List Bool, perform .readDisplay s = (.display view, s) ∧ view.length = 2048 ∧
    ∀ (col : Fin 64) (row : Fin 32), view[col.val + 64 * row.val]? = some (s.disp.pixel col row)

/-- `take_beep` returns `beep`, clears it and changes nothing else, so a second call returns false (60 R179, decision D11, log 12). -/
def Obligations.TakeBeepReturnsAndClears : Prop :=
  ∀ s : State, perform .takeBeep s = (.beep s.beep, { s with beep := false }) ∧
    (perform .takeBeep (perform .takeBeep s).2).1 = .beep false

/-- A step that fails after its fetch leaves `pc` advanced by 2 and nothing else changed, no timer decayed (60 R170, decision D6,
log 7). -/
def Obligations.FailingStepOnlyAdvancesPc : Prop :=
  ∀ (s : State) (f : Fault), s.pc.toNat ≤ 4094 → step s = .fault f → hostStep s = (.fault f, { s with pc := s.pc + 2 })

/-- From a quiescent state every further step returns `ok` and leaves the state exactly as it is (70 R197, decision D18, log 18). -/
def Obligations.QuiescentStateStays : Prop :=
  ∀ s : State, Quiescent s → step s = .next s
end

