-- ==== Sys2Proof/Laws/Decode.lean ====
section
/-! SUPPORT. What the fields of a built word are, how the built words meet the masks of the opcode map, and that a word
survives its big-endian bytes. -/

namespace Sys2Proof

/-! ### The fields of a built word -/

@[simp] theorem nibble1_wordA (op : Nibble) (n : Imm12) : nibble1 (wordA op n) = op := by
  apply BitVec.eq_of_getLsbD_eq
  intro i hi
  simp only [nibble1, wordA, BitVec.getLsbD_extractLsb, BitVec.getLsbD_append]
  interval_cases i <;> simp

@[simp] theorem fieldNNN_wordA (op : Nibble) (n : Imm12) : fieldNNN (wordA op n) = n := by
  apply BitVec.eq_of_getLsbD_eq
  intro i hi
  simp only [fieldNNN, wordA, BitVec.getLsbD_extractLsb, BitVec.getLsbD_append]
  interval_cases i <;> simp

@[simp] theorem nibble1_wordXI (op : Nibble) (x : Reg) (n : Byte) : nibble1 (wordXI op x n) = op := by
  apply BitVec.eq_of_getLsbD_eq
  intro i hi
  simp only [nibble1, wordXI, BitVec.getLsbD_extractLsb, BitVec.getLsbD_append]
  interval_cases i <;> simp

@[simp] theorem nibble2_wordXI (op : Nibble) (x : Reg) (n : Byte) : nibble2 (wordXI op x n) = regBits x := by
  apply BitVec.eq_of_getLsbD_eq
  intro i hi
  simp only [nibble2, wordXI, BitVec.getLsbD_extractLsb, BitVec.getLsbD_append]
  interval_cases i <;> simp

@[simp] theorem fieldNN_wordXI (op : Nibble) (x : Reg) (n : Byte) : fieldNN (wordXI op x n) = n := by
  apply BitVec.eq_of_getLsbD_eq
  intro i hi
  simp only [fieldNN, wordXI, BitVec.getLsbD_extractLsb, BitVec.getLsbD_append]
  interval_cases i <;> simp

@[simp] theorem nibble1_wordXY (op : Nibble) (x y : Reg) (l : Nibble) : nibble1 (wordXY op x y l) = op := by
  apply BitVec.eq_of_getLsbD_eq
  intro i hi
  simp only [nibble1, wordXY, BitVec.getLsbD_extractLsb, BitVec.getLsbD_append]
  interval_cases i <;> simp

@[simp] theorem nibble2_wordXY (op : Nibble) (x y : Reg) (l : Nibble) : nibble2 (wordXY op x y l) = regBits x := by
  apply BitVec.eq_of_getLsbD_eq
  intro i hi
  simp only [nibble2, wordXY, BitVec.getLsbD_extractLsb, BitVec.getLsbD_append]
  interval_cases i <;> simp

@[simp] theorem nibble3_wordXY (op : Nibble) (x y : Reg) (l : Nibble) : nibble3 (wordXY op x y l) = regBits y := by
  apply BitVec.eq_of_getLsbD_eq
  intro i hi
  simp only [nibble3, wordXY, BitVec.getLsbD_extractLsb, BitVec.getLsbD_append]
  interval_cases i <;> simp

@[simp] theorem nibble4_wordXY (op : Nibble) (x y : Reg) (l : Nibble) : nibble4 (wordXY op x y l) = l := by
  apply BitVec.eq_of_getLsbD_eq
  intro i hi
  simp only [nibble4, wordXY, BitVec.getLsbD_extractLsb, BitVec.getLsbD_append]
  interval_cases i <;> simp

@[simp] theorem toFin_regBits (x : Reg) : (regBits x).toFin = x := rfl

@[simp] theorem fieldX_wordXI (op : Nibble) (x : Reg) (n : Byte) : fieldX (wordXI op x n) = x := by simp [fieldX]

@[simp] theorem fieldX_wordXY (op : Nibble) (x y : Reg) (l : Nibble) : fieldX (wordXY op x y l) = x := by simp [fieldX]

@[simp] theorem fieldY_wordXY (op : Nibble) (x y : Reg) (l : Nibble) : fieldY (wordXY op x y l) = y := by simp [fieldY]

/-! ### A built word as a number -/

theorem wordA_eq_ofNat (op : Nibble) (n : Imm12) : wordA op n = BitVec.ofNat 16 (op.toNat * 4096 + n.toNat) := by
  apply BitVec.eq_of_toNat_eq
  have := op.isLt
  have := n.isLt
  simp only [wordA, BitVec.toNat_append, BitVec.toNat_ofNat]
  rw [← Nat.shiftLeft_add_eq_or_of_lt n.isLt, Nat.shiftLeft_eq]
  omega

theorem wordXI_eq_ofNat (op : Nibble) (x : Reg) (n : Byte) :
    wordXI op x n = BitVec.ofNat 16 (op.toNat * 4096 + x.val * 256 + n.toNat) := by
  apply BitVec.eq_of_toNat_eq
  have := op.isLt
  have hx : (regBits x).toNat = x.val := rfl
  have := x.isLt
  have := n.isLt
  simp only [wordXI, BitVec.toNat_append, BitVec.toNat_ofNat, hx]
  rw [← Nat.shiftLeft_add_eq_or_of_lt n.isLt, ← Nat.shiftLeft_add_eq_or_of_lt (b := x.val) x.isLt]
  simp only [Nat.shiftLeft_eq]
  omega

theorem wordXY_eq_ofNat (op : Nibble) (x y : Reg) (l : Nibble) :
    wordXY op x y l = BitVec.ofNat 16 (op.toNat * 4096 + x.val * 256 + y.val * 16 + l.toNat) := by
  apply BitVec.eq_of_toNat_eq
  have := op.isLt
  have hx : (regBits x).toNat = x.val := rfl
  have hy : (regBits y).toNat = y.val := rfl
  have := x.isLt
  have := y.isLt
  have := l.isLt
  simp only [wordXY, BitVec.toNat_append, BitVec.toNat_ofNat, hx, hy]
  rw [← Nat.shiftLeft_add_eq_or_of_lt l.isLt, ← Nat.shiftLeft_add_eq_or_of_lt (b := y.val) y.isLt,
    ← Nat.shiftLeft_add_eq_or_of_lt (b := x.val) x.isLt]
  simp only [Nat.shiftLeft_eq]
  omega

/-! ### The masks of the opcode map on a built word -/

theorem wordA_mask (op : Nibble) (n : Imm12) : wordA op n &&& 0xF000 = wordA op 0 := by
  apply BitVec.eq_of_getLsbD_eq
  intro i hi
  simp only [wordA, BitVec.getLsbD_and, BitVec.getLsbD_append]
  interval_cases i <;> simp

theorem wordXI_mask (op : Nibble) (x : Reg) (n : Byte) : wordXI op x n &&& 0xF000 = wordXI op 0 0 := by
  apply BitVec.eq_of_getLsbD_eq
  intro i hi
  simp only [wordXI, regBits, BitVec.getLsbD_and, BitVec.getLsbD_append]
  interval_cases i <;> simp

theorem wordXI_mask_function (op : Nibble) (x : Reg) (n : Byte) : wordXI op x n &&& 0xF0FF = wordXI op 0 n := by
  apply BitVec.eq_of_getLsbD_eq
  intro i hi
  simp only [wordXI, regBits, BitVec.getLsbD_and, BitVec.getLsbD_append]
  interval_cases i <;> simp

theorem wordXY_mask (op : Nibble) (x y : Reg) (l : Nibble) : wordXY op x y l &&& 0xF000 = wordXY op 0 0 0 := by
  apply BitVec.eq_of_getLsbD_eq
  intro i hi
  simp only [wordXY, regBits, BitVec.getLsbD_and, BitVec.getLsbD_append]
  interval_cases i <;> simp

theorem wordXY_mask_function (op : Nibble) (x y : Reg) (l : Nibble) : wordXY op x y l &&& 0xF00F = wordXY op 0 0 l := by
  apply BitVec.eq_of_getLsbD_eq
  intro i hi
  simp only [wordXY, regBits, BitVec.getLsbD_and, BitVec.getLsbD_append]
  interval_cases i <;> simp

/-! ### Bytes -/

/-- The bytes of a word, put together again big-endian, are the word (20_memory R54). -/
@[simp] theorem wordOfBytes_extractLsb (w : Word) : wordOfBytes (w.extractLsb 15 8) (w.extractLsb 7 0) = w := by
  apply BitVec.eq_of_toNat_eq
  have := w.isLt
  simp [wordOfBytes, BitVec.extractLsb_toNat, Nat.shiftRight_eq_div_pow]
  omega

@[simp] theorem length_bytesOfWord (w : Word) : (bytesOfWord w).length = 2 := rfl

/-- Decoding the bytes of a word is decoding the word. -/
theorem decode_bytesOfWord (w : Word) (rest : List Byte) :
    decode (bytesOfWord w ++ rest) =
      match decodeWord w with
      | some i => .ok (i, rest)
      | none => .error (.unknownOpcode w) := by
  cases h : decodeWord w <;> simp [bytesOfWord, decode, h]

theorem decodeTableWord_eq (w : Word) : decodeTableWord 16 w.toNat = decodeWord w := by
  have hw : tableWord 16 w.toNat = w := by
    apply BitVec.eq_of_toNat_eq
    have := w.isLt
    simp only [tableWord, BitVec.toNat_ofNat]
    omega
  have := decode_bytesOfWord w []
  rw [List.append_nil] at this
  rw [decodeTableWord, hw, this]
  cases decodeWord w <;> rfl

end Sys2Proof
end

