-- ==== Sys2Proof/Laws/Draw.lean ====
section
/-! SUPPORT. What drawing does, once each: a pixel after an inversion, a sprite pixel, a sprite row, a whole sprite. Each
says which pixels are inverted and when the collision latch is set (spec/44_display.md R141 to R143). -/

namespace Sys2Proof.Machine

theorem Display.pixel_setPixel (d : Display) (col col' : Fin 64) (row row' : Fin 32) (b : Bool) :
    (d.setPixel col row b).pixel col' row' = if col' = col ∧ row' = row then b else d.pixel col' row' := by
  simp only [Display.pixel, Display.setPixel, Fin.getElem_fin, Vector.getElem_set, Fin.ext_iff]
  by_cases hr : row.val = row'.val
  · simp only [hr, if_true, Vector.getElem_set]
    by_cases hc : col.val = col'.val
    · simp [hc]
    · simp [hc, Ne.symm hc]
  · simp [hr, Ne.symm hr]

@[simp] theorem Display.pixel_clear (col : Fin 64) (row : Fin 32) : Display.clear.pixel col row = false := by
  simp [Display.clear, Display.pixel]

/-- Displays are equal when their pixels are. -/
theorem Display.ext_pixel {d e : Display} (h : ∀ col row, d.pixel col row = e.pixel col row) : d = e := by
  apply Vector.ext
  intro r hr
  apply Vector.ext
  intro c hc
  exact h ⟨c, hc⟩ ⟨r, hr⟩

/-- Over a drawing `g`, a set `P` of pixels inverted once each gives `g'`: the display is the exclusive or, and the latch is
set when a pixel of `P` was true. -/
def Inverts (P : Fin 64 → Fin 32 → Prop) (g g' : Drawing) : Prop :=
  (∀ col row, g'.1.pixel col row = true ↔ (¬ (g.1.pixel col row = true ↔ P col row))) ∧
    (g'.2 = true ↔ g.2 = true ∨ ∃ col row, P col row ∧ g.1.pixel col row = true)

theorem Inverts.congr {P Q : Fin 64 → Fin 32 → Prop} {g g' : Drawing} (h : Inverts P g g') (hq : ∀ c r, P c r ↔ Q c r) :
    Inverts Q g g' := by
  have : P = Q := funext fun c => funext fun r => propext (hq c r)
  exact this ▸ h

theorem Inverts.none (g : Drawing) : Inverts (fun _ _ => False) g g := by
  constructor <;> simp

/-- Two sets with no pixel in common, one after the other, invert their union. -/
theorem Inverts.trans {P Q : Fin 64 → Fin 32 → Prop} {g g' g'' : Drawing} (h : Inverts P g g') (h' : Inverts Q g' g'')
    (hd : ∀ c r, P c r → ¬ Q c r) : Inverts (fun c r => P c r ∨ Q c r) g g'' := by
  refine ⟨fun c r => ?_, ?_⟩
  · rw [h'.1, h.1]
    have := hd c r
    tauto
  · rw [h'.2, h.2, or_assoc]
    refine or_congr_right ⟨?_, ?_⟩
    · rintro (⟨c, r, hp, hl⟩ | ⟨c, r, hq, hl⟩)
      · exact ⟨c, r, Or.inl hp, hl⟩
      · rw [h.1] at hl
        have := hd c r
        exact ⟨c, r, Or.inr hq, by tauto⟩
    · rintro ⟨c, r, hp | hq, hl⟩
      · exact Or.inl ⟨c, r, hp, hl⟩
      · refine Or.inr ⟨c, r, hq, ?_⟩
        rw [h.1]
        have := hd c r
        tauto

/-- One sprite pixel inverts the pixel at its wrapped coordinates, if its bit is set. -/
theorem drawPixel_inverts (col row : Nat) (bit : Bool) (g : Drawing) :
    Inverts (fun c r => bit = true ∧ c = wrapCol col ∧ r = wrapRow row) g (drawPixel col row bit g) := by
  unfold drawPixel
  split
  · next hb =>
    refine ⟨fun c r => ?_, ?_⟩
    · simp only [Display.pixel_setPixel]
      by_cases hcr : c = wrapCol col ∧ r = wrapRow row
      · obtain ⟨rfl, rfl⟩ := hcr
        cases g.1.pixel (wrapCol col) (wrapRow row) <;> simp [hb]
      · rw [if_neg hcr]
        simp [hb, hcr]
    · simp [hb]
  · next hb => exact (Inverts.none g).congr fun c r => by simp [hb]

theorem wrapCol_inj {a c c' : Nat} (hc : c < 64) (hc' : c' < 64) (h : wrapCol (a + c) = wrapCol (a + c')) : c = c' := by
  have := congrArg Fin.val h
  simp only [wrapCol, Fin.ofNat] at this
  omega

theorem wrapRow_inj {a c c' : Nat} (hc : c < 32) (hc' : c' < 32) (h : wrapRow (a + c) = wrapRow (a + c')) : c = c' := by
  have := congrArg Fin.val h
  simp only [wrapRow, Fin.ofNat] at this
  omega

theorem drawCols_inverts (vx row : Nat) (b : Byte) (n : Nat) (hn : n ≤ 8) (g : Drawing) :
    Inverts (fun c r => ∃ k, k < n ∧ spriteBit b k = true ∧ c = wrapCol (vx + k) ∧ r = wrapRow row) g
      ((List.range n).foldl (fun g c => drawPixel (vx + c) row (spriteBit b c) g) g) := by
  induction n with
  | zero => exact (Inverts.none g).congr fun c r => by simp
  | succ n ih =>
    rw [List.range_succ, List.foldl_append]
    refine ((ih (by omega)).trans (drawPixel_inverts (vx + n) row (spriteBit b n) _) ?_).congr fun c r => ?_
    · rintro c r ⟨k, hk, -, hc, -⟩ ⟨-, hc', -⟩
      have := wrapCol_inj (by omega) (by omega) (hc.symm.trans hc')
      omega
    · constructor
      · rintro (⟨k, hk, h⟩ | h)
        · exact ⟨k, by omega, h⟩
        · exact ⟨n, by omega, h⟩
      · rintro ⟨k, hk, h⟩
        by_cases hkn : k = n
        · exact Or.inr (hkn ▸ h)
        · exact Or.inl ⟨k, by omega, h⟩

/-- One sprite row inverts the pixels of its set bits, in the wrapped columns of the wrapped row. -/
theorem drawRow_inverts (vx row : Nat) (b : Byte) (g : Drawing) :
    Inverts (fun c r => ∃ k, k < 8 ∧ spriteBit b k = true ∧ c = wrapCol (vx + k) ∧ r = wrapRow row) g
      (drawRow vx row b g) := drawCols_inverts vx row b 8 (Nat.le_refl 8) g

/-- A sprite of at most 32 rows inverts the pixels of its set bits, each once (44_display R141: at most 15 rows). -/
theorem drawSprite_inverts (vx row : Nat) (g : Drawing) (bs : List Byte) (hl : bs.length ≤ 32) :
    Inverts (fun c r => ∃ j b, bs[j]? = some b ∧ ∃ k, k < 8 ∧ spriteBit b k = true ∧ c = wrapCol (vx + k) ∧
      r = wrapRow (row + j)) g (drawSprite vx row g bs) := by
  induction bs generalizing row g with
  | nil => exact (Inverts.none g).congr fun c r => by simp
  | cons b bs ih =>
    simp only [List.length_cons] at hl
    refine ((drawRow_inverts vx row b g).trans (ih (row + 1) _ (by omega)) ?_).congr fun c r => ?_
    · rintro c r ⟨k, -, -, -, hr⟩ ⟨j, b', hj, k', -, -, -, hr'⟩
      have hjl : j < bs.length := (List.getElem?_eq_some_iff.1 hj).1
      rw [Nat.add_assoc] at hr'
      have := wrapRow_inj (a := row) (c := 0) (c' := 1 + j) (by omega) (by omega) (hr.symm.trans hr')
      omega
    · constructor
      · rintro (h | ⟨j, b', hj, k, hk, hb, hc, hr⟩)
        · exact ⟨0, b, rfl, by simpa using h⟩
        · exact ⟨j + 1, b', by simpa using hj, k, hk, hb, hc, by rw [hr]; congr 1; omega⟩
      · rintro ⟨j, b', hj, k, hk, hb, hc, hr⟩
        cases j with
        | zero =>
          obtain rfl : b = b' := by simpa using hj
          exact Or.inl ⟨k, hk, hb, hc, hr⟩
        | succ j => exact Or.inr ⟨j, b', by simpa using hj, k, hk, hb, hc, by rw [hr]; congr 1; omega⟩

end Sys2Proof.Machine
end

