-- ==== Sys2Proof/Laws/State.lean ====
section
/-! SUPPORT. What each named update of the state leaves in each field: one lemma per field per update, and the composed
updates (advance, skip, decay, flag writes) over them. Register reads after register writes close the file. -/

namespace Sys2Proof.Machine

variable (s : State)

/-! ### setMem -/

@[simp] theorem State.setMem_mem (m : Memory) : (s.setMem m).mem = m := rfl
@[simp] theorem State.setMem_pc (m : Memory) : (s.setMem m).pc = s.pc := rfl
@[simp] theorem State.setMem_v (m : Memory) : (s.setMem m).v = s.v := rfl
@[simp] theorem State.setMem_ireg (m : Memory) : (s.setMem m).ireg = s.ireg := rfl
@[simp] theorem State.setMem_stack (m : Memory) : (s.setMem m).stack = s.stack := rfl
@[simp] theorem State.setMem_sp (m : Memory) : (s.setMem m).sp = s.sp := rfl
@[simp] theorem State.setMem_dt (m : Memory) : (s.setMem m).dt = s.dt := rfl
@[simp] theorem State.setMem_st (m : Memory) : (s.setMem m).st = s.st := rfl
@[simp] theorem State.setMem_disp (m : Memory) : (s.setMem m).disp = s.disp := rfl
@[simp] theorem State.setMem_key (m : Memory) : (s.setMem m).key = s.key := rfl
@[simp] theorem State.setMem_beep (m : Memory) : (s.setMem m).beep = s.beep := rfl
@[simp] theorem State.setMem_draws (m : Memory) : (s.setMem m).draws = s.draws := rfl
@[simp] theorem State.setMem_getV (m : Memory) (r : Reg) : (s.setMem m).getV r = s.getV r := rfl

/-! ### setPc -/

@[simp] theorem State.setPc_mem (p : Word) : (s.setPc p).mem = s.mem := rfl
@[simp] theorem State.setPc_pc (p : Word) : (s.setPc p).pc = p := rfl
@[simp] theorem State.setPc_v (p : Word) : (s.setPc p).v = s.v := rfl
@[simp] theorem State.setPc_ireg (p : Word) : (s.setPc p).ireg = s.ireg := rfl
@[simp] theorem State.setPc_stack (p : Word) : (s.setPc p).stack = s.stack := rfl
@[simp] theorem State.setPc_sp (p : Word) : (s.setPc p).sp = s.sp := rfl
@[simp] theorem State.setPc_dt (p : Word) : (s.setPc p).dt = s.dt := rfl
@[simp] theorem State.setPc_st (p : Word) : (s.setPc p).st = s.st := rfl
@[simp] theorem State.setPc_disp (p : Word) : (s.setPc p).disp = s.disp := rfl
@[simp] theorem State.setPc_key (p : Word) : (s.setPc p).key = s.key := rfl
@[simp] theorem State.setPc_beep (p : Word) : (s.setPc p).beep = s.beep := rfl
@[simp] theorem State.setPc_draws (p : Word) : (s.setPc p).draws = s.draws := rfl
@[simp] theorem State.setPc_getV (p : Word) (r : Reg) : (s.setPc p).getV r = s.getV r := rfl

/-! ### setV -/

@[simp] theorem State.setV_mem (x : Reg) (b : Byte) : (s.setV x b).mem = s.mem := rfl
@[simp] theorem State.setV_pc (x : Reg) (b : Byte) : (s.setV x b).pc = s.pc := rfl
@[simp] theorem State.setV_v (x : Reg) (b : Byte) : (s.setV x b).v = s.v.set x b := rfl
@[simp] theorem State.setV_ireg (x : Reg) (b : Byte) : (s.setV x b).ireg = s.ireg := rfl
@[simp] theorem State.setV_stack (x : Reg) (b : Byte) : (s.setV x b).stack = s.stack := rfl
@[simp] theorem State.setV_sp (x : Reg) (b : Byte) : (s.setV x b).sp = s.sp := rfl
@[simp] theorem State.setV_dt (x : Reg) (b : Byte) : (s.setV x b).dt = s.dt := rfl
@[simp] theorem State.setV_st (x : Reg) (b : Byte) : (s.setV x b).st = s.st := rfl
@[simp] theorem State.setV_disp (x : Reg) (b : Byte) : (s.setV x b).disp = s.disp := rfl
@[simp] theorem State.setV_key (x : Reg) (b : Byte) : (s.setV x b).key = s.key := rfl
@[simp] theorem State.setV_beep (x : Reg) (b : Byte) : (s.setV x b).beep = s.beep := rfl
@[simp] theorem State.setV_draws (x : Reg) (b : Byte) : (s.setV x b).draws = s.draws := rfl

/-! ### setRegs -/

@[simp] theorem State.setRegs_mem (r : Vector Byte 16) : (s.setRegs r).mem = s.mem := rfl
@[simp] theorem State.setRegs_pc (r : Vector Byte 16) : (s.setRegs r).pc = s.pc := rfl
@[simp] theorem State.setRegs_v (r : Vector Byte 16) : (s.setRegs r).v = r := rfl
@[simp] theorem State.setRegs_ireg (r : Vector Byte 16) : (s.setRegs r).ireg = s.ireg := rfl
@[simp] theorem State.setRegs_stack (r : Vector Byte 16) : (s.setRegs r).stack = s.stack := rfl
@[simp] theorem State.setRegs_sp (r : Vector Byte 16) : (s.setRegs r).sp = s.sp := rfl
@[simp] theorem State.setRegs_dt (r : Vector Byte 16) : (s.setRegs r).dt = s.dt := rfl
@[simp] theorem State.setRegs_st (r : Vector Byte 16) : (s.setRegs r).st = s.st := rfl
@[simp] theorem State.setRegs_disp (r : Vector Byte 16) : (s.setRegs r).disp = s.disp := rfl
@[simp] theorem State.setRegs_key (r : Vector Byte 16) : (s.setRegs r).key = s.key := rfl
@[simp] theorem State.setRegs_beep (r : Vector Byte 16) : (s.setRegs r).beep = s.beep := rfl
@[simp] theorem State.setRegs_draws (r : Vector Byte 16) : (s.setRegs r).draws = s.draws := rfl

/-! ### setI -/

@[simp] theorem State.setI_mem (w : Word) : (s.setI w).mem = s.mem := rfl
@[simp] theorem State.setI_pc (w : Word) : (s.setI w).pc = s.pc := rfl
@[simp] theorem State.setI_v (w : Word) : (s.setI w).v = s.v := rfl
@[simp] theorem State.setI_ireg (w : Word) : (s.setI w).ireg = w := rfl
@[simp] theorem State.setI_stack (w : Word) : (s.setI w).stack = s.stack := rfl
@[simp] theorem State.setI_sp (w : Word) : (s.setI w).sp = s.sp := rfl
@[simp] theorem State.setI_dt (w : Word) : (s.setI w).dt = s.dt := rfl
@[simp] theorem State.setI_st (w : Word) : (s.setI w).st = s.st := rfl
@[simp] theorem State.setI_disp (w : Word) : (s.setI w).disp = s.disp := rfl
@[simp] theorem State.setI_key (w : Word) : (s.setI w).key = s.key := rfl
@[simp] theorem State.setI_beep (w : Word) : (s.setI w).beep = s.beep := rfl
@[simp] theorem State.setI_draws (w : Word) : (s.setI w).draws = s.draws := rfl
@[simp] theorem State.setI_getV (w : Word) (r : Reg) : (s.setI w).getV r = s.getV r := rfl

/-! ### setStack -/

@[simp] theorem State.setStack_mem (e : Vector Word 16) (p : Fin 17) : (s.setStack e p).mem = s.mem := rfl
@[simp] theorem State.setStack_pc (e : Vector Word 16) (p : Fin 17) : (s.setStack e p).pc = s.pc := rfl
@[simp] theorem State.setStack_v (e : Vector Word 16) (p : Fin 17) : (s.setStack e p).v = s.v := rfl
@[simp] theorem State.setStack_ireg (e : Vector Word 16) (p : Fin 17) : (s.setStack e p).ireg = s.ireg := rfl
@[simp] theorem State.setStack_stack (e : Vector Word 16) (p : Fin 17) : (s.setStack e p).stack = e := rfl
@[simp] theorem State.setStack_sp (e : Vector Word 16) (p : Fin 17) : (s.setStack e p).sp = p := rfl
@[simp] theorem State.setStack_dt (e : Vector Word 16) (p : Fin 17) : (s.setStack e p).dt = s.dt := rfl
@[simp] theorem State.setStack_st (e : Vector Word 16) (p : Fin 17) : (s.setStack e p).st = s.st := rfl
@[simp] theorem State.setStack_disp (e : Vector Word 16) (p : Fin 17) : (s.setStack e p).disp = s.disp := rfl
@[simp] theorem State.setStack_key (e : Vector Word 16) (p : Fin 17) : (s.setStack e p).key = s.key := rfl
@[simp] theorem State.setStack_beep (e : Vector Word 16) (p : Fin 17) : (s.setStack e p).beep = s.beep := rfl
@[simp] theorem State.setStack_draws (e : Vector Word 16) (p : Fin 17) : (s.setStack e p).draws = s.draws := rfl
@[simp] theorem State.setStack_getV (e : Vector Word 16) (p : Fin 17) (r : Reg) : (s.setStack e p).getV r = s.getV r := rfl

/-! ### setDt -/

@[simp] theorem State.setDt_mem (b : Byte) : (s.setDt b).mem = s.mem := rfl
@[simp] theorem State.setDt_pc (b : Byte) : (s.setDt b).pc = s.pc := rfl
@[simp] theorem State.setDt_v (b : Byte) : (s.setDt b).v = s.v := rfl
@[simp] theorem State.setDt_ireg (b : Byte) : (s.setDt b).ireg = s.ireg := rfl
@[simp] theorem State.setDt_stack (b : Byte) : (s.setDt b).stack = s.stack := rfl
@[simp] theorem State.setDt_sp (b : Byte) : (s.setDt b).sp = s.sp := rfl
@[simp] theorem State.setDt_dt (b : Byte) : (s.setDt b).dt = b := rfl
@[simp] theorem State.setDt_st (b : Byte) : (s.setDt b).st = s.st := rfl
@[simp] theorem State.setDt_disp (b : Byte) : (s.setDt b).disp = s.disp := rfl
@[simp] theorem State.setDt_key (b : Byte) : (s.setDt b).key = s.key := rfl
@[simp] theorem State.setDt_beep (b : Byte) : (s.setDt b).beep = s.beep := rfl
@[simp] theorem State.setDt_draws (b : Byte) : (s.setDt b).draws = s.draws := rfl
@[simp] theorem State.setDt_getV (b : Byte) (r : Reg) : (s.setDt b).getV r = s.getV r := rfl

/-! ### setSt -/

@[simp] theorem State.setSt_mem (b : Byte) : (s.setSt b).mem = s.mem := rfl
@[simp] theorem State.setSt_pc (b : Byte) : (s.setSt b).pc = s.pc := rfl
@[simp] theorem State.setSt_v (b : Byte) : (s.setSt b).v = s.v := rfl
@[simp] theorem State.setSt_ireg (b : Byte) : (s.setSt b).ireg = s.ireg := rfl
@[simp] theorem State.setSt_stack (b : Byte) : (s.setSt b).stack = s.stack := rfl
@[simp] theorem State.setSt_sp (b : Byte) : (s.setSt b).sp = s.sp := rfl
@[simp] theorem State.setSt_dt (b : Byte) : (s.setSt b).dt = s.dt := rfl
@[simp] theorem State.setSt_st (b : Byte) : (s.setSt b).st = b := rfl
@[simp] theorem State.setSt_disp (b : Byte) : (s.setSt b).disp = s.disp := rfl
@[simp] theorem State.setSt_key (b : Byte) : (s.setSt b).key = s.key := rfl
@[simp] theorem State.setSt_beep (b : Byte) : (s.setSt b).beep = s.beep := rfl
@[simp] theorem State.setSt_draws (b : Byte) : (s.setSt b).draws = s.draws := rfl
@[simp] theorem State.setSt_getV (b : Byte) (r : Reg) : (s.setSt b).getV r = s.getV r := rfl

/-! ### setDisp -/

@[simp] theorem State.setDisp_mem (d : Display) : (s.setDisp d).mem = s.mem := rfl
@[simp] theorem State.setDisp_pc (d : Display) : (s.setDisp d).pc = s.pc := rfl
@[simp] theorem State.setDisp_v (d : Display) : (s.setDisp d).v = s.v := rfl
@[simp] theorem State.setDisp_ireg (d : Display) : (s.setDisp d).ireg = s.ireg := rfl
@[simp] theorem State.setDisp_stack (d : Display) : (s.setDisp d).stack = s.stack := rfl
@[simp] theorem State.setDisp_sp (d : Display) : (s.setDisp d).sp = s.sp := rfl
@[simp] theorem State.setDisp_dt (d : Display) : (s.setDisp d).dt = s.dt := rfl
@[simp] theorem State.setDisp_st (d : Display) : (s.setDisp d).st = s.st := rfl
@[simp] theorem State.setDisp_disp (d : Display) : (s.setDisp d).disp = d := rfl
@[simp] theorem State.setDisp_key (d : Display) : (s.setDisp d).key = s.key := rfl
@[simp] theorem State.setDisp_beep (d : Display) : (s.setDisp d).beep = s.beep := rfl
@[simp] theorem State.setDisp_draws (d : Display) : (s.setDisp d).draws = s.draws := rfl
@[simp] theorem State.setDisp_getV (d : Display) (r : Reg) : (s.setDisp d).getV r = s.getV r := rfl

/-! ### setKey -/

@[simp] theorem State.setKey_mem (k : KeyNo) (b : Bool) : (s.setKey k b).mem = s.mem := rfl
@[simp] theorem State.setKey_pc (k : KeyNo) (b : Bool) : (s.setKey k b).pc = s.pc := rfl
@[simp] theorem State.setKey_v (k : KeyNo) (b : Bool) : (s.setKey k b).v = s.v := rfl
@[simp] theorem State.setKey_ireg (k : KeyNo) (b : Bool) : (s.setKey k b).ireg = s.ireg := rfl
@[simp] theorem State.setKey_stack (k : KeyNo) (b : Bool) : (s.setKey k b).stack = s.stack := rfl
@[simp] theorem State.setKey_sp (k : KeyNo) (b : Bool) : (s.setKey k b).sp = s.sp := rfl
@[simp] theorem State.setKey_dt (k : KeyNo) (b : Bool) : (s.setKey k b).dt = s.dt := rfl
@[simp] theorem State.setKey_st (k : KeyNo) (b : Bool) : (s.setKey k b).st = s.st := rfl
@[simp] theorem State.setKey_disp (k : KeyNo) (b : Bool) : (s.setKey k b).disp = s.disp := rfl
@[simp] theorem State.setKey_key (k : KeyNo) (b : Bool) : (s.setKey k b).key = s.key.set k b := rfl
@[simp] theorem State.setKey_beep (k : KeyNo) (b : Bool) : (s.setKey k b).beep = s.beep := rfl
@[simp] theorem State.setKey_draws (k : KeyNo) (b : Bool) : (s.setKey k b).draws = s.draws := rfl
@[simp] theorem State.setKey_getV (k : KeyNo) (b : Bool) (r : Reg) : (s.setKey k b).getV r = s.getV r := rfl

/-! ### setBeep -/

@[simp] theorem State.setBeep_mem (b : Bool) : (s.setBeep b).mem = s.mem := rfl
@[simp] theorem State.setBeep_pc (b : Bool) : (s.setBeep b).pc = s.pc := rfl
@[simp] theorem State.setBeep_v (b : Bool) : (s.setBeep b).v = s.v := rfl
@[simp] theorem State.setBeep_ireg (b : Bool) : (s.setBeep b).ireg = s.ireg := rfl
@[simp] theorem State.setBeep_stack (b : Bool) : (s.setBeep b).stack = s.stack := rfl
@[simp] theorem State.setBeep_sp (b : Bool) : (s.setBeep b).sp = s.sp := rfl
@[simp] theorem State.setBeep_dt (b : Bool) : (s.setBeep b).dt = s.dt := rfl
@[simp] theorem State.setBeep_st (b : Bool) : (s.setBeep b).st = s.st := rfl
@[simp] theorem State.setBeep_disp (b : Bool) : (s.setBeep b).disp = s.disp := rfl
@[simp] theorem State.setBeep_key (b : Bool) : (s.setBeep b).key = s.key := rfl
@[simp] theorem State.setBeep_beep (b : Bool) : (s.setBeep b).beep = b := rfl
@[simp] theorem State.setBeep_draws (b : Bool) : (s.setBeep b).draws = s.draws := rfl
@[simp] theorem State.setBeep_getV (b : Bool) (r : Reg) : (s.setBeep b).getV r = s.getV r := rfl

/-! ### setDraws -/

@[simp] theorem State.setDraws_mem (n : Nat) : (s.setDraws n).mem = s.mem := rfl
@[simp] theorem State.setDraws_pc (n : Nat) : (s.setDraws n).pc = s.pc := rfl
@[simp] theorem State.setDraws_v (n : Nat) : (s.setDraws n).v = s.v := rfl
@[simp] theorem State.setDraws_ireg (n : Nat) : (s.setDraws n).ireg = s.ireg := rfl
@[simp] theorem State.setDraws_stack (n : Nat) : (s.setDraws n).stack = s.stack := rfl
@[simp] theorem State.setDraws_sp (n : Nat) : (s.setDraws n).sp = s.sp := rfl
@[simp] theorem State.setDraws_dt (n : Nat) : (s.setDraws n).dt = s.dt := rfl
@[simp] theorem State.setDraws_st (n : Nat) : (s.setDraws n).st = s.st := rfl
@[simp] theorem State.setDraws_disp (n : Nat) : (s.setDraws n).disp = s.disp := rfl
@[simp] theorem State.setDraws_key (n : Nat) : (s.setDraws n).key = s.key := rfl
@[simp] theorem State.setDraws_beep (n : Nat) : (s.setDraws n).beep = s.beep := rfl
@[simp] theorem State.setDraws_draws (n : Nat) : (s.setDraws n).draws = n := rfl
@[simp] theorem State.setDraws_getV (n : Nat) (r : Reg) : (s.setDraws n).getV r = s.getV r := rfl

/-! ### advance -/

@[simp] theorem State.advance_mem : s.advance.mem = s.mem := rfl
@[simp] theorem State.advance_pc : s.advance.pc = s.pc + 2 := rfl
@[simp] theorem State.advance_v : s.advance.v = s.v := rfl
@[simp] theorem State.advance_ireg : s.advance.ireg = s.ireg := rfl
@[simp] theorem State.advance_stack : s.advance.stack = s.stack := rfl
@[simp] theorem State.advance_sp : s.advance.sp = s.sp := rfl
@[simp] theorem State.advance_dt : s.advance.dt = s.dt := rfl
@[simp] theorem State.advance_st : s.advance.st = s.st := rfl
@[simp] theorem State.advance_disp : s.advance.disp = s.disp := rfl
@[simp] theorem State.advance_key : s.advance.key = s.key := rfl
@[simp] theorem State.advance_beep : s.advance.beep = s.beep := rfl
@[simp] theorem State.advance_draws : s.advance.draws = s.draws := rfl
@[simp] theorem State.advance_getV (r : Reg) : s.advance.getV r = s.getV r := rfl
@[simp] theorem State.advance_pc0 : s.advance.pc0 = s.pc := by simp [State.pc0]

/-! ### skipIf -/

@[simp] theorem State.skipIf_mem (c : Bool) : (s.skipIf c).mem = s.mem := by cases c <;> rfl
theorem State.skipIf_pc (c : Bool) : (s.skipIf c).pc = if c then s.pc + 2 else s.pc := by cases c <;> rfl
@[simp] theorem State.skipIf_v (c : Bool) : (s.skipIf c).v = s.v := by cases c <;> rfl
@[simp] theorem State.skipIf_ireg (c : Bool) : (s.skipIf c).ireg = s.ireg := by cases c <;> rfl
@[simp] theorem State.skipIf_stack (c : Bool) : (s.skipIf c).stack = s.stack := by cases c <;> rfl
@[simp] theorem State.skipIf_sp (c : Bool) : (s.skipIf c).sp = s.sp := by cases c <;> rfl
@[simp] theorem State.skipIf_dt (c : Bool) : (s.skipIf c).dt = s.dt := by cases c <;> rfl
@[simp] theorem State.skipIf_st (c : Bool) : (s.skipIf c).st = s.st := by cases c <;> rfl
@[simp] theorem State.skipIf_disp (c : Bool) : (s.skipIf c).disp = s.disp := by cases c <;> rfl
@[simp] theorem State.skipIf_key (c : Bool) : (s.skipIf c).key = s.key := by cases c <;> rfl
@[simp] theorem State.skipIf_beep (c : Bool) : (s.skipIf c).beep = s.beep := by cases c <;> rfl
@[simp] theorem State.skipIf_draws (c : Bool) : (s.skipIf c).draws = s.draws := by cases c <;> rfl
@[simp] theorem State.skipIf_true : s.skipIf true = s.setPc (s.pc + 2) := rfl
@[simp] theorem State.skipIf_false : s.skipIf false = s := rfl

/-! ### decay -/

@[simp] theorem State.decay_mem : s.decay.mem = s.mem := rfl
@[simp] theorem State.decay_pc : s.decay.pc = s.pc := rfl
@[simp] theorem State.decay_v : s.decay.v = s.v := rfl
@[simp] theorem State.decay_ireg : s.decay.ireg = s.ireg := rfl
@[simp] theorem State.decay_stack : s.decay.stack = s.stack := rfl
@[simp] theorem State.decay_sp : s.decay.sp = s.sp := rfl
@[simp] theorem State.decay_dt : s.decay.dt = countDown s.dt := rfl
@[simp] theorem State.decay_st : s.decay.st = countDown s.st := rfl
@[simp] theorem State.decay_disp : s.decay.disp = s.disp := rfl
@[simp] theorem State.decay_key : s.decay.key = s.key := rfl
@[simp] theorem State.decay_beep : s.decay.beep = (s.beep || s.st == 1) := rfl
@[simp] theorem State.decay_draws : s.decay.draws = s.draws := rfl
@[simp] theorem State.decay_getV (r : Reg) : s.decay.getV r = s.getV r := rfl

/-! ### flag writes -/

@[simp] theorem State.setFlag_mem (c : Bool) : (s.setFlag c).mem = s.mem := rfl
@[simp] theorem State.setResultThenFlag_mem (x : Reg) (r : Byte) (c : Bool) : (s.setResultThenFlag x r c).mem = s.mem := rfl
@[simp] theorem State.setFlagThenResult_mem (x : Reg) (r : Byte) (c : Bool) : (s.setFlagThenResult x r c).mem = s.mem := rfl
@[simp] theorem State.setFlag_pc (c : Bool) : (s.setFlag c).pc = s.pc := rfl
@[simp] theorem State.setResultThenFlag_pc (x : Reg) (r : Byte) (c : Bool) : (s.setResultThenFlag x r c).pc = s.pc := rfl
@[simp] theorem State.setFlagThenResult_pc (x : Reg) (r : Byte) (c : Bool) : (s.setFlagThenResult x r c).pc = s.pc := rfl
@[simp] theorem State.setFlag_ireg (c : Bool) : (s.setFlag c).ireg = s.ireg := rfl
@[simp] theorem State.setResultThenFlag_ireg (x : Reg) (r : Byte) (c : Bool) : (s.setResultThenFlag x r c).ireg = s.ireg := rfl
@[simp] theorem State.setFlagThenResult_ireg (x : Reg) (r : Byte) (c : Bool) : (s.setFlagThenResult x r c).ireg = s.ireg := rfl
@[simp] theorem State.setFlag_stack (c : Bool) : (s.setFlag c).stack = s.stack := rfl
@[simp] theorem State.setResultThenFlag_stack (x : Reg) (r : Byte) (c : Bool) : (s.setResultThenFlag x r c).stack = s.stack := rfl
@[simp] theorem State.setFlagThenResult_stack (x : Reg) (r : Byte) (c : Bool) : (s.setFlagThenResult x r c).stack = s.stack := rfl
@[simp] theorem State.setFlag_sp (c : Bool) : (s.setFlag c).sp = s.sp := rfl
@[simp] theorem State.setResultThenFlag_sp (x : Reg) (r : Byte) (c : Bool) : (s.setResultThenFlag x r c).sp = s.sp := rfl
@[simp] theorem State.setFlagThenResult_sp (x : Reg) (r : Byte) (c : Bool) : (s.setFlagThenResult x r c).sp = s.sp := rfl
@[simp] theorem State.setFlag_dt (c : Bool) : (s.setFlag c).dt = s.dt := rfl
@[simp] theorem State.setResultThenFlag_dt (x : Reg) (r : Byte) (c : Bool) : (s.setResultThenFlag x r c).dt = s.dt := rfl
@[simp] theorem State.setFlagThenResult_dt (x : Reg) (r : Byte) (c : Bool) : (s.setFlagThenResult x r c).dt = s.dt := rfl
@[simp] theorem State.setFlag_st (c : Bool) : (s.setFlag c).st = s.st := rfl
@[simp] theorem State.setResultThenFlag_st (x : Reg) (r : Byte) (c : Bool) : (s.setResultThenFlag x r c).st = s.st := rfl
@[simp] theorem State.setFlagThenResult_st (x : Reg) (r : Byte) (c : Bool) : (s.setFlagThenResult x r c).st = s.st := rfl
@[simp] theorem State.setFlag_disp (c : Bool) : (s.setFlag c).disp = s.disp := rfl
@[simp] theorem State.setResultThenFlag_disp (x : Reg) (r : Byte) (c : Bool) : (s.setResultThenFlag x r c).disp = s.disp := rfl
@[simp] theorem State.setFlagThenResult_disp (x : Reg) (r : Byte) (c : Bool) : (s.setFlagThenResult x r c).disp = s.disp := rfl
@[simp] theorem State.setFlag_key (c : Bool) : (s.setFlag c).key = s.key := rfl
@[simp] theorem State.setResultThenFlag_key (x : Reg) (r : Byte) (c : Bool) : (s.setResultThenFlag x r c).key = s.key := rfl
@[simp] theorem State.setFlagThenResult_key (x : Reg) (r : Byte) (c : Bool) : (s.setFlagThenResult x r c).key = s.key := rfl
@[simp] theorem State.setFlag_beep (c : Bool) : (s.setFlag c).beep = s.beep := rfl
@[simp] theorem State.setResultThenFlag_beep (x : Reg) (r : Byte) (c : Bool) : (s.setResultThenFlag x r c).beep = s.beep := rfl
@[simp] theorem State.setFlagThenResult_beep (x : Reg) (r : Byte) (c : Bool) : (s.setFlagThenResult x r c).beep = s.beep := rfl
@[simp] theorem State.setFlag_draws (c : Bool) : (s.setFlag c).draws = s.draws := rfl
@[simp] theorem State.setResultThenFlag_draws (x : Reg) (r : Byte) (c : Bool) : (s.setResultThenFlag x r c).draws = s.draws := rfl
@[simp] theorem State.setFlagThenResult_draws (x : Reg) (r : Byte) (c : Bool) : (s.setFlagThenResult x r c).draws = s.draws := rfl

/-! ### register reads after register writes -/

theorem State.getV_setV (x r : Reg) (b : Byte) : (s.setV x b).getV r = if r = x then b else s.getV r := by
  simp only [State.getV, State.setV, Fin.getElem_fin, Vector.getElem_set, Fin.ext_iff, eq_comm]

@[simp] theorem State.getV_setV_same (x : Reg) (b : Byte) : (s.setV x b).getV x = b := by
  simp [State.getV_setV]

theorem State.getV_setFlag (r : Reg) (c : Bool) :
    (s.setFlag c).getV r = if r = 15 then flagByte c else s.getV r := State.getV_setV s _ r _

/-- Result first, flag second: register 15 holds the flag, whatever `x` is. -/
theorem State.getV_setResultThenFlag (x r : Reg) (b : Byte) (c : Bool) :
    (s.setResultThenFlag x b c).getV r = if r = 15 then flagByte c else if r = x then b else s.getV r := by
  simp [State.setResultThenFlag, State.getV_setFlag, State.getV_setV]

/-- Flag first, result second: register `x` holds the result, whatever `x` is. -/
theorem State.getV_setFlagThenResult (x r : Reg) (b : Byte) (c : Bool) :
    (s.setFlagThenResult x b c).getV r = if r = x then b else if r = 15 then flagByte c else s.getV r := by
  simp [State.setFlagThenResult, State.getV_setFlag, State.getV_setV]

@[simp] theorem State.getV_setRegs (r : Vector Byte 16) (x : Reg) : (s.setRegs r).getV x = r[x] := rfl

/-- States are equal when their fields are. -/
theorem State.ext_fields {s t : State} (h1 : s.mem = t.mem) (h2 : s.pc = t.pc) (h3 : s.v = t.v) (h4 : s.ireg = t.ireg)
    (h5 : s.stack = t.stack) (h6 : s.sp = t.sp) (h7 : s.dt = t.dt) (h8 : s.st = t.st) (h9 : s.disp = t.disp)
    (h10 : s.key = t.key) (h11 : s.beep = t.beep) (h12 : s.draws = t.draws) : s = t := by
  cases s; cases t; simp_all

end Sys2Proof.Machine
end

