-- ==== Sys2Proof/Laws/Memory.lean ====
section
/-! SUPPORT. The laws of memory: read after write, the canonical form is kept by every operation, and two memories in
canonical form that read alike are the same data. -/

namespace Sys2Proof.Machine

@[simp] theorem Memory.read_nil (a : Nat) : Memory.read [] a = Memory.unlisted a := rfl

theorem Memory.read_cons (c : Host.Cell) (m : Memory) (a : Nat) :
    Memory.read (c :: m) a = if c.1 = a then c.2 else Memory.read m a := rfl

theorem Memory.wfFrom_cons (lo : Nat) (c : Host.Cell) (m : Memory) :
    Memory.wfFrom lo (c :: m) = true ↔
      lo ≤ c.1 ∧ c.1 < 4096 ∧ c.2 ≠ Memory.unlisted c.1 ∧ Memory.wfFrom (c.1 + 1) m = true := by
  simp [Memory.wfFrom, and_assoc]

theorem Memory.wfFrom_mono {lo lo' : Nat} {m : Memory} (h : Memory.wfFrom lo m = true) (hl : lo' ≤ lo) :
    Memory.wfFrom lo' m = true := by
  cases m with
  | nil => rfl
  | cons c m =>
    rw [Memory.wfFrom_cons] at h ⊢
    exact ⟨by omega, h.2⟩

/-- Below the first listed address memory reads as unlisted. -/
theorem Memory.read_below {lo a : Nat} {m : Memory} (h : Memory.wfFrom lo m = true) (ha : a < lo) :
    m.read a = Memory.unlisted a := by
  induction m generalizing lo with
  | nil => rfl
  | cons c m ih =>
    rw [Memory.wfFrom_cons] at h
    rw [Memory.read_cons, if_neg (by omega)]
    exact ih h.2.2.2 (by omega)

theorem Memory.read_put (a : Nat) (b : Byte) (m : Memory) (h : m.read a = Memory.unlisted a) (a' : Nat) :
    (Memory.put a b m).read a' = if a' = a then b else m.read a' := by
  unfold Memory.put
  split
  · next hb => split <;> simp_all
  · simp only [Memory.read_cons, eq_comm]

theorem Memory.wfFrom_put {lo a : Nat} {b : Byte} {m : Memory} (h : Memory.wfFrom (a + 1) m = true) (hl : lo ≤ a)
    (ha : a < 4096) : Memory.wfFrom lo (Memory.put a b m) = true := by
  unfold Memory.put
  split
  · exact Memory.wfFrom_mono h (by omega)
  · next hb => exact (Memory.wfFrom_cons ..).2 ⟨hl, ha, hb, h⟩

theorem Memory.wfFrom_write {lo a : Nat} {b : Byte} {m : Memory} (h : Memory.wfFrom lo m = true) (hl : lo ≤ a)
    (ha : a < 4096) : Memory.wfFrom lo (m.write a b) = true := by
  induction m generalizing lo with
  | nil => exact Memory.wfFrom_put rfl hl ha
  | cons c m ih =>
    have hc := (Memory.wfFrom_cons ..).1 h
    unfold Memory.write
    split
    · exact (Memory.wfFrom_cons ..).2 ⟨hc.1, hc.2.1, hc.2.2.1, ih hc.2.2.2 (by omega)⟩
    · split
      · exact Memory.wfFrom_put (Memory.wfFrom_mono hc.2.2.2 (by omega)) hl ha
      · exact Memory.wfFrom_put ((Memory.wfFrom_cons ..).2 ⟨by omega, hc.2⟩) hl ha

/-- A write keeps the canonical form. -/
theorem Memory.wf_write {m : Memory} {a : Nat} {b : Byte} (h : m.wf = true) (ha : a < 4096) :
    (m.write a b).wf = true := Memory.wfFrom_write h (Nat.zero_le a) ha

theorem Memory.read_writeFrom {lo : Nat} {m : Memory} (h : Memory.wfFrom lo m = true) (a : Nat) (b : Byte) (a' : Nat) :
    (m.write a b).read a' = if a' = a then b else m.read a' := by
  induction m generalizing lo with
  | nil => exact Memory.read_put a b [] rfl a'
  | cons c m ih =>
    have hc := (Memory.wfFrom_cons ..).1 h
    unfold Memory.write
    split
    · rw [Memory.read_cons, Memory.read_cons, ih hc.2.2.2]
      split <;> split <;> first | rfl | omega
    · split
      · next h1 h2 =>
        rw [Memory.read_put _ _ _ (Memory.read_below hc.2.2.2 (by omega)), Memory.read_cons]
        split <;> [rfl; rw [if_neg (by omega)]]
      · exact Memory.read_put _ _ _ (by rw [Memory.read_cons, if_neg (by omega)]; exact Memory.read_below hc.2.2.2 (by omega)) a'

/-- Read after write: the byte written at its address, the byte before at every other (20_memory R57). -/
theorem Memory.read_write {m : Memory} (h : m.wf = true) (a : Nat) (b : Byte) (a' : Nat) :
    (m.write a b).read a' = if a' = a then b else m.read a' := Memory.read_writeFrom h a b a'

/-- A sequence of writes below 4096 keeps the canonical form. -/
theorem Memory.wf_writeBytes {m : Memory} {a : Nat} {bs : List Byte} (h : m.wf = true) (ha : a + bs.length ≤ 4096) :
    (m.writeBytes a bs).wf = true := by
  induction bs generalizing m a with
  | nil => exact h
  | cons b bs ih =>
    simp only [List.length_cons] at ha
    exact ih (Memory.wf_write h (by omega)) (by omega)

/-- What memory reads as after a sequence of writes. -/
theorem Memory.read_writeBytes {m : Memory} {a : Nat} {bs : List Byte} (h : m.wf = true) (ha : a + bs.length ≤ 4096)
    (a' : Nat) : (m.writeBytes a bs).read a' = if a ≤ a' then bs.getD (a' - a) (m.read a') else m.read a' := by
  induction bs generalizing m a with
  | nil => simp [Memory.writeBytes]
  | cons b bs ih =>
    simp only [List.length_cons] at ha
    rw [Memory.writeBytes, ih (Memory.wf_write h (by omega)) (by omega), Memory.read_write h]
    by_cases h1 : a' = a
    · subst h1
      rw [if_neg (by omega)]
      simp
    · simp only [h1, if_false]
      by_cases h2 : a ≤ a'
      · obtain ⟨k, rfl⟩ : ∃ k, a' = a + 1 + k := ⟨a' - (a + 1), by omega⟩
        simp [show a + 1 + k - a = k + 1 by omega, show a ≤ a + 1 + k by omega]
      · rw [if_neg (by omega), if_neg h2]

/-- Outside the bytes written, memory reads as before. -/
theorem Memory.read_writeBytes_outside {m : Memory} {a : Nat} {bs : List Byte} (h : m.wf = true)
    (ha : a + bs.length ≤ 4096) {a' : Nat} (ho : a' < a ∨ a + bs.length ≤ a') :
    (m.writeBytes a bs).read a' = m.read a' := by
  rw [Memory.read_writeBytes h ha]
  split
  · rw [List.getD_eq_default _ _ (by omega)]
  · rfl

/-- Inside the bytes written, memory reads as written. -/
theorem Memory.read_writeBytes_inside {m : Memory} {a : Nat} {bs : List Byte} (h : m.wf = true)
    (ha : a + bs.length ≤ 4096) {k : Nat} (hk : k < bs.length) :
    (m.writeBytes a bs).read (a + k) = bs[k] := by
  rw [Memory.read_writeBytes h ha, if_pos (by omega), Nat.add_sub_cancel_left, List.getD_eq_getElem _ _ hk]

@[simp] theorem Memory.length_readBytes (m : Memory) (a n : Nat) : (m.readBytes a n).length = n := by
  induction n generalizing a with
  | zero => rfl
  | succ n ih => simp [Memory.readBytes, ih]

theorem Memory.getElem_readBytes (m : Memory) (a n k : Nat) (h : k < (m.readBytes a n).length) :
    (m.readBytes a n)[k] = m.read (a + k) := by
  induction n generalizing a k with
  | zero => simp [Memory.readBytes] at h
  | succ n ih =>
    cases k with
    | zero => rfl
    | succ k => simp [Memory.readBytes, ih, Nat.add_assoc, Nat.add_comm 1 k]

theorem Memory.eq_of_read_eqFrom {lo : Nat} {m m' : Memory} (h : Memory.wfFrom lo m = true) (h' : Memory.wfFrom lo m' = true)
    (hr : ∀ a, m.read a = m'.read a) : m = m' := by
  induction m generalizing lo m' with
  | nil =>
    cases m' with
    | nil => rfl
    | cons c m' =>
      have hc := (Memory.wfFrom_cons ..).1 h'
      exact absurd (by simpa [Memory.read_cons] using (hr c.1).symm) hc.2.2.1
  | cons c m ih =>
    have hc := (Memory.wfFrom_cons ..).1 h
    cases m' with
    | nil => exact absurd (by simpa [Memory.read_cons] using hr c.1) hc.2.2.1
    | cons d m' =>
      have hd := (Memory.wfFrom_cons ..).1 h'
      have key : c.1 = d.1 := by
        rcases Nat.lt_trichotomy c.1 d.1 with hlt | heq | hgt
        · have := hr c.1
          rw [Memory.read_cons, if_pos rfl, Memory.read_cons, if_neg (by omega),
            Memory.read_below hd.2.2.2 (by omega)] at this
          exact absurd this hc.2.2.1
        · exact heq
        · have := hr d.1
          rw [Memory.read_cons (c := d), if_pos rfl, Memory.read_cons, if_neg (by omega),
            Memory.read_below hc.2.2.2 (by omega)] at this
          exact absurd this.symm hd.2.2.1
      have hb : c.2 = d.2 := by
        have := hr c.1
        rwa [Memory.read_cons, if_pos rfl, Memory.read_cons, if_pos key.symm] at this
      have hcd : c = d := Prod.ext key hb
      subst hcd
      rw [ih hc.2.2.2 hd.2.2.2 fun a => ?_]
      by_cases ha : a ≤ c.1
      · rw [Memory.read_below hc.2.2.2 (by omega), Memory.read_below hd.2.2.2 (by omega)]
      · have := hr a
        rwa [Memory.read_cons, if_neg (by omega), Memory.read_cons, if_neg (by omega)] at this

/-- Canonical form: memories that read alike at every address are equal as data. -/
theorem Memory.eq_of_read_eq {m m' : Memory} (h : m.wf = true) (h' : m'.wf = true) (hr : ∀ a, m.read a = m'.read a) :
    m = m' := Memory.eq_of_read_eqFrom h h' hr

/-- Reset lists nothing, which is canonical. -/
theorem State.reset_mem_wf : State.reset.mem.wf = true := rfl

/-- A memory in canonical form reads as unlisted above address 4095: it never grows (10_state R32). -/
theorem Memory.read_above {lo : Nat} {m : Memory} (h : Memory.wfFrom lo m = true) {a : Nat} (ha : 4096 ≤ a) :
    m.read a = Memory.unlisted a := by
  induction m generalizing lo with
  | nil => rfl
  | cons c m ih =>
    have hc := (Memory.wfFrom_cons ..).1 h
    rw [Memory.read_cons, if_neg (by omega)]
    exact ih hc.2.2.2

end Sys2Proof.Machine
end

