-- ==== Sys2Proof/Laws/Operands.lean ====
section
/-! SUPPORT. What each operand form gives, once each: the addresses as numbers, the byte lists by length and element, and the
flag byte. -/

namespace Sys2Proof.Machine

variable (s : State)

@[simp] theorem toNat_absolute (nnn : Imm12) : (absolute nnn).toNat = nnn.toNat := by
  have := nnn.isLt
  simp only [absolute, BitVec.toNat_setWidth]
  omega

@[simp] theorem toNat_offsetByV0 (nnn : Imm12) : (offsetByV0 s nnn).toNat = (s.getV 0).toNat + nnn.toNat := by
  have := nnn.isLt
  have := (s.getV 0).isLt
  simp only [offsetByV0, BitVec.toNat_add, toNat_absolute, BitVec.toNat_setWidth]
  omega

@[simp] theorem toNat_glyphAddress (b : Byte) : (glyphAddress b).toNat = b.toNat * 5 := by
  have := b.isLt
  simp only [glyphAddress, Config.glyphStride, BitVec.toNat_ofNat]
  omega

theorem toNat_indexPlus (x : Reg) : (indexPlus s x).toNat = (s.ireg.toNat + (s.getV x).toNat) % 65536 := by
  have := (s.getV x).isLt
  simp only [indexPlus, BitVec.toNat_add, BitVec.toNat_setWidth]
  omega

@[simp] theorem length_decimalDigits (b : Byte) : (decimalDigits b).length = 3 := rfl

@[simp] theorem length_regsUpTo (x : Reg) : (regsUpTo s x).length = x.val + 1 := by
  have := x.isLt
  simp only [regsUpTo, List.length_take, Vector.length_toList]
  omega

theorem getElem_regsUpTo (x : Reg) (k : Nat) (h : k < (regsUpTo s x).length) :
    (regsUpTo s x)[k] = s.getV ⟨k, by rw [length_regsUpTo] at h; omega⟩ := by
  simp [regsUpTo, State.getV]

theorem getElem_regsFromMemory (x r : Reg) :
    (regsFromMemory s x)[r] = if r ≤ x then s.mem.read (s.ireg.toNat + r.val) else s.getV r := by
  simp [regsFromMemory, indexBase]

@[simp] theorem length_spriteRows (n : Nibble) : (spriteRows s n).length = n.toNat := by simp [spriteRows]

theorem getElem?_spriteRows (n : Nibble) (j : Nat) (b : Byte) :
    (spriteRows s n)[j]? = some b ↔ j < n.toNat ∧ b = s.mem.read (s.ireg.toNat + j) := by
  simp only [List.getElem?_eq_some_iff, spriteRows, indexBase, Memory.getElem_readBytes]
  simp [eq_comm]

theorem flagByte_eq_one_iff (c : Bool) : flagByte c = 1 ↔ c = true := by cases c <;> decide

theorem flagByte_eq_zero_iff (c : Bool) : flagByte c = 0 ↔ c = false := by cases c <;> decide

end Sys2Proof.Machine
end

