-- ==== Sys2Proof/Laws/Ops.lean ====
section
/-! SUPPORT. What each shared operation can do, once each: stack, range check, key number, lowest key, timer, fetch, the
step, and the word placed for the next step. -/

namespace Sys2Proof.Machine

variable {s t : State}

/-! ### Stack -/

/-- A push with room writes the entry above the newest and counts it. -/
theorem State.push_of_lt (w : Word) (h : s.sp.val < 16) :
    s.push w = some (s.setStack (s.stack.set s.sp.val w h) ⟨s.sp.val + 1, Nat.succ_lt_succ h⟩) := dif_pos h

/-- A push on a full stack gives nothing. -/
theorem State.push_of_full (w : Word) (h : s.sp.val = 16) : s.push w = none := dif_neg (by omega)

/-- A pop of an empty stack gives nothing. -/
theorem State.pop_of_empty (h : s.sp.val = 0) : s.pop = none := by
  obtain ⟨_, _, _, _, _, ⟨n, hn⟩, _⟩ := s
  subst h
  rfl

/-- A pop of `n + 1` entries reads entry `n` and leaves every bit of the stack in place. -/
theorem State.pop_of_succ {n : Nat} (h : s.sp.val = n + 1) (hn : n < 16) :
    s.pop = some (s.stack[n], s.setStack s.stack ⟨n, Nat.lt_succ_of_lt hn⟩) := by
  obtain ⟨_, _, _, _, _, ⟨k, hk⟩, _⟩ := s
  subst h
  rfl

/-! ### The range check -/

theorem rangeFault_eq_none_iff {n : Nat} : rangeFault s n = none ↔ n = 0 ∨ s.ireg.toNat + n ≤ 4096 := by
  simp only [rangeFault, Config.memSize]
  split <;> simp <;> omega

/-- With every byte in range the access goes ahead. -/
theorem withBytesAtI_of_inside {n : Nat} (k : Host.Outcome State Fault Refusal) (h : n = 0 ∨ s.ireg.toNat + n ≤ 4096) :
    withBytesAtI s n k = k := by
  rw [withBytesAtI, rangeFault_eq_none_iff.2 h]

/-- With a byte out of range the access is the fault of the lowest address outside, and nothing else. -/
theorem withBytesAtI_of_outside {n : Nat} (k : Host.Outcome State Fault Refusal) (h0 : n ≠ 0)
    (h : 4096 < s.ireg.toNat + n) : withBytesAtI s n k = .fault (.addressOutOfRange (max s.ireg.toNat 4096)) := by
  have : rangeFault s n = some (.addressOutOfRange (max s.ireg.toNat 4096)) := by
    simp only [rangeFault, Config.memSize, lowestOutside]
    rw [if_pos (by omega)]
  rw [withBytesAtI, this]
  rfl

/-- If a checked access answers a next state, its bytes were in range. -/
theorem inside_of_withBytesAtI {n : Nat} {u : State} (h : withBytesAtI s n (.next u) = .next t) :
    (n = 0 ∨ s.ireg.toNat + n ≤ 4096) ∧ u = t := by
  by_cases hin : n = 0 ∨ s.ireg.toNat + n ≤ 4096
  · rw [withBytesAtI_of_inside _ hin] at h
    exact ⟨hin, by injection h⟩
  · rw [withBytesAtI_of_outside _ (by omega) (by omega)] at h
    cases h

/-! ### Keys and timers -/

theorem keyNumber_of_le {b : Byte} (h : b.toNat ≤ 15) : keyNumber b = some ⟨b.toNat, Nat.lt_succ_of_le h⟩ :=
  dif_pos (Nat.lt_succ_of_le h)

theorem keyNumber_of_gt {b : Byte} (h : 15 < b.toNat) : keyNumber b = none := dif_neg (by omega)

/-- No lowest key exactly when no key is pressed. -/
theorem State.lowestKey_eq_none_iff : s.lowestKey = none ↔ ∀ k : KeyNo, s.key[k] = false := by
  simp [State.lowestKey]

/-- The lowest key is pressed, and no lower one is. -/
theorem State.lowestKey_eq_some_iff {k : KeyNo} :
    s.lowestKey = some k ↔ s.key[k] = true ∧ ∀ j : KeyNo, j < k → s.key[j] = false := by
  simp only [State.lowestKey, List.find?_eq_some_iff_getElem]
  constructor
  · rintro ⟨hk, n, hn, hkn, hlt⟩
    simp only [List.getElem_finRange, Fin.cast_mk] at hkn
    refine ⟨hk, fun j hj => ?_⟩
    have := hlt j.val (by subst hkn; exact hj)
    simpa using this
  · rintro ⟨hk, hlt⟩
    refine ⟨hk, k.val, by simp, by simp, fun j hj => ?_⟩
    have := hlt ⟨j, by omega⟩ hj
    simpa using this

/-- A count-down is by one, and stays at 0. -/
theorem toNat_countDown (b : Byte) : (countDown b).toNat = b.toNat - 1 := by
  unfold countDown
  split
  · next h => subst h; rfl
  · next h =>
    have : b.toNat ≠ 0 := fun h' => h (BitVec.eq_of_toNat_eq h')
    have := b.isLt
    rw [BitVec.toNat_sub]
    simp
    omega

/-! ### Fetch and the step -/

/-- A word is fetched exactly from an address up to 4094, big-endian. -/
theorem fetch_of_le (h : s.pc.toNat ≤ 4094) :
    fetch s = some (wordOfBytes (s.mem.read s.pc.toNat) (s.mem.read (s.pc.toNat + 1))) := by
  simp only [fetch, readWord, readByte, Config.memSize]
  rw [if_pos (by omega), if_pos (by omega)]

theorem fetch_of_gt (h : 4094 < s.pc.toNat) : fetch s = none := by
  simp only [fetch, readWord, readByte, Config.memSize]
  by_cases h1 : s.pc.toNat < 4096
  · rw [if_pos h1, if_neg (by omega)]
  · rw [if_neg h1]

theorem fetch_eq_some_imp {w : Word} (h : fetch s = some w) : s.pc.toNat ≤ 4094 := by
  by_contra hn
  rw [fetch_of_gt (by omega)] at h
  cases h

/-- A failing step leaves the state as it was after a fetch fault, and only `pc` advanced after any other. -/
theorem State.leftByFault_eq (s : State) : s.leftByFault = if s.pc.toNat ≤ 4094 then s.advance else s := by
  have hf : s.leftByFault = match fetch s with
      | none => s
      | some _ => s.setPc (s.pc + 2) := rfl
  split
  · next h => rw [hf, fetch_of_le h]; rfl
  · next h => rw [hf, fetch_of_gt (by omega)]

/-- If a step answers a next state, a word was fetched and decoded, its meaning ran on the advanced state and answered a
next state, and the timers decayed. -/
theorem step_cases (h : step s = .next t) :
    ∃ w i u, fetch s = some w ∧ decodeWord w = some i ∧ exec i s.advance = .next u ∧ t = u.decay := by
  unfold step stepWith at h
  split at h
  · cases h
  · next w hw =>
    split at h
    · cases h
    · next i hi =>
      cases hu : exec i s.advance with
      | next u => rw [hu] at h; injection h with h; exact ⟨w, i, u, hw, hi, hu, h.symm⟩
      | fault f => rw [hu] at h; cases h
      | refused r => rw [hu] at h; cases h

/-- The word placed for the next step is the word the step fetches. -/
theorem fetch_placeWord (w : Word) (hm : s.mem.wf = true) (h : s.pc.toNat ≤ 4094) : fetch (s.placeWord w) = some w := by
  have hp : s.placeWord w = s.setMem (s.mem.writeBytes s.pc.toNat (bytesOfWord w)) := by
    simp only [State.placeWord]
    rw [if_pos h]
  have hl : s.pc.toNat + (bytesOfWord w).length ≤ 4096 := by simp; omega
  rw [hp, fetch_of_le (s := s.setMem (s.mem.writeBytes s.pc.toNat (bytesOfWord w))) h]
  have h0 := Memory.read_writeBytes_inside hm hl (k := 0) (by simp)
  have h1 := Memory.read_writeBytes_inside hm hl (k := 1) (by simp)
  simp only [State.setMem_mem, State.setMem_pc, h1]
  rw [Nat.add_zero] at h0
  rw [h0]
  exact congrArg some (wordOfBytes_extractLsb w)

end Sys2Proof.Machine
end

