-- ==== Sys2Proof/Laws/PerInstr.lean ====
section
/-! SUPPORT. Per instruction: the encoding of the instruction fits the row of the opcode map that its mnemonic names
(spec/30_encoding.md R73, R75). -/

namespace Sys2Proof.Laws.EncodingFits

/-- The instruction's word matches the row of `opcodeTable` with the instruction's mnemonic. -/
def Statement (i : Instr) : Prop := ∃ r ∈ opcodeTable, r.mnemonic = i.mnemonic ∧ r.hits (encode i) = true

/-- The row is given by its place in the table, and the mask laws of Laws/Decode.lean do the rest. -/
theorem of_row (i : Instr) (k : Nat) (r : Row) (hk : opcodeTable[k]? = some r) (hm : r.mnemonic = i.mnemonic)
    (hw : encode i &&& r.mask = r.pattern) : Statement i :=
  ⟨r, List.mem_of_getElem? hk, hm, by simp [Row.hits, hw]⟩

theorem nop : Statement .nop := of_row _ 0 _ rfl rfl <| by decide
theorem cls : Statement .cls := of_row _ 1 _ rfl rfl <| by decide
theorem ret : Statement .ret := of_row _ 2 _ rfl rfl <| by decide
theorem jp (nnn : Imm12) : Statement (.jp nnn) := of_row _ 3 _ rfl rfl <| (wordA_mask ..).trans (by decide)
theorem call (nnn : Imm12) : Statement (.call nnn) := of_row _ 4 _ rfl rfl <| (wordA_mask ..).trans (by decide)
theorem seImm (x : Reg) (nn : Byte) : Statement (.seImm x nn) := of_row _ 5 _ rfl rfl <| (wordXI_mask ..).trans (by decide)
theorem sneImm (x : Reg) (nn : Byte) : Statement (.sneImm x nn) := of_row _ 6 _ rfl rfl <| (wordXI_mask ..).trans (by decide)
theorem seReg (x : Reg) (y : Reg) : Statement (.seReg x y) := of_row _ 7 _ rfl rfl <| (wordXY_mask_function ..).trans (by decide)
theorem ldImm (x : Reg) (nn : Byte) : Statement (.ldImm x nn) := of_row _ 8 _ rfl rfl <| (wordXI_mask ..).trans (by decide)
theorem addImm (x : Reg) (nn : Byte) : Statement (.addImm x nn) := of_row _ 9 _ rfl rfl <| (wordXI_mask ..).trans (by decide)
theorem ldReg (x : Reg) (y : Reg) : Statement (.ldReg x y) := of_row _ 10 _ rfl rfl <| (wordXY_mask_function ..).trans (by decide)
theorem orReg (x : Reg) (y : Reg) : Statement (.orReg x y) := of_row _ 11 _ rfl rfl <| (wordXY_mask_function ..).trans (by decide)
theorem andReg (x : Reg) (y : Reg) : Statement (.andReg x y) := of_row _ 12 _ rfl rfl <| (wordXY_mask_function ..).trans (by decide)
theorem xorReg (x : Reg) (y : Reg) : Statement (.xorReg x y) := of_row _ 13 _ rfl rfl <| (wordXY_mask_function ..).trans (by decide)
theorem addReg (x : Reg) (y : Reg) : Statement (.addReg x y) := of_row _ 14 _ rfl rfl <| (wordXY_mask_function ..).trans (by decide)
theorem sub (x : Reg) (y : Reg) : Statement (.sub x y) := of_row _ 15 _ rfl rfl <| (wordXY_mask_function ..).trans (by decide)
theorem shr (x : Reg) (y : Reg) : Statement (.shr x y) := of_row _ 16 _ rfl rfl <| (wordXY_mask_function ..).trans (by decide)
theorem subn (x : Reg) (y : Reg) : Statement (.subn x y) := of_row _ 17 _ rfl rfl <| (wordXY_mask_function ..).trans (by decide)
theorem shl (x : Reg) (y : Reg) : Statement (.shl x y) := of_row _ 18 _ rfl rfl <| (wordXY_mask_function ..).trans (by decide)
theorem sneReg (x : Reg) (y : Reg) : Statement (.sneReg x y) := of_row _ 19 _ rfl rfl <| (wordXY_mask_function ..).trans (by decide)
theorem ldI (nnn : Imm12) : Statement (.ldI nnn) := of_row _ 20 _ rfl rfl <| (wordA_mask ..).trans (by decide)
theorem jpV0 (nnn : Imm12) : Statement (.jpV0 nnn) := of_row _ 21 _ rfl rfl <| (wordA_mask ..).trans (by decide)
theorem rnd (x : Reg) (nn : Byte) : Statement (.rnd x nn) := of_row _ 22 _ rfl rfl <| (wordXI_mask ..).trans (by decide)
theorem drw (x : Reg) (y : Reg) (n : Nibble) : Statement (.drw x y n) := of_row _ 23 _ rfl rfl <| (wordXY_mask ..).trans (by decide)
theorem skp (x : Reg) : Statement (.skp x) := of_row _ 24 _ rfl rfl <| (wordXI_mask_function ..).trans (by decide)
theorem sknp (x : Reg) : Statement (.sknp x) := of_row _ 25 _ rfl rfl <| (wordXI_mask_function ..).trans (by decide)
theorem ldVxDt (x : Reg) : Statement (.ldVxDt x) := of_row _ 26 _ rfl rfl <| (wordXI_mask_function ..).trans (by decide)
theorem ldVxK (x : Reg) : Statement (.ldVxK x) := of_row _ 27 _ rfl rfl <| (wordXI_mask_function ..).trans (by decide)
theorem ldDtVx (x : Reg) : Statement (.ldDtVx x) := of_row _ 28 _ rfl rfl <| (wordXI_mask_function ..).trans (by decide)
theorem ldStVx (x : Reg) : Statement (.ldStVx x) := of_row _ 29 _ rfl rfl <| (wordXI_mask_function ..).trans (by decide)
theorem addI (x : Reg) : Statement (.addI x) := of_row _ 30 _ rfl rfl <| (wordXI_mask_function ..).trans (by decide)
theorem ldF (x : Reg) : Statement (.ldF x) := of_row _ 31 _ rfl rfl <| (wordXI_mask_function ..).trans (by decide)
theorem ldB (x : Reg) : Statement (.ldB x) := of_row _ 32 _ rfl rfl <| (wordXI_mask_function ..).trans (by decide)
theorem stRegs (x : Reg) : Statement (.stRegs x) := of_row _ 33 _ rfl rfl <| (wordXI_mask_function ..).trans (by decide)
theorem ldRegs (x : Reg) : Statement (.ldRegs x) := of_row _ 34 _ rfl rfl <| (wordXI_mask_function ..).trans (by decide)

end Sys2Proof.Laws.EncodingFits
end

