-- ==== Sys2Proof/Tests/Slice0.lean ====
section
/-! SUPPORT. Tests, each of one word or one step. The words are written out from the `encoding` column of
spec/30_encoding.md R75; the expected results are the vectors of spec/95_test_vectors.md, named in each comment by their id
(CF, SK, AL, IX, DR, TM, KW, H), or a hand calculation from the rule named. The witnesses at the end meet the hypotheses of the
statements of Certificates/Slice0/Obligations.lean, at boundary values. -/

namespace Sys2Proof.Tests

open Sys2Proof Sys2Proof.Machine

/-! ### Helpers -/

/-- The state after a step that runs word `w`, if the step answers `ok`. -/
def after (w : Word) (s : State) : Option State :=
  match step (s.placeWord w) with
  | .next t => some t
  | _ => none

/-- The fault of a step that runs word `w`, if it answers one. -/
def faultOf (w : Word) (s : State) : Option Fault :=
  match step (s.placeWord w) with
  | .fault f => some f
  | _ => none

/-- Whether a property holds of the state after the step; false if there is none. -/
def afterHas (w : Word) (s : State) (p : State → Bool) : Bool :=
  match after w s with
  | some t => p t
  | none => false

abbrev reset : State := State.reset
/-- The reset state with one register set. -/
def v1 (x : Reg) (a : Byte) : State := reset.setV x a
/-- The reset state with two registers set. -/
def v2 (x : Reg) (a : Byte) (y : Reg) (b : Byte) : State := (reset.setV x a).setV y b
/-- A state with `I` set and bytes stored there. -/
def withI (s : State) (i : Word) (bytes : List Byte) : State := (s.setI i).setMem (s.mem.writeBytes i.toNat bytes)
/-- A state with `sp` entries in use. -/
def withSp (s : State) (sp : Fin 17) : State := s.setStack s.stack sp

/-! ### Words that are no instruction: one for each group of 30_encoding R76 -/

theorem test_illformed_0nnn : wellFormedWord 0x0001 = false ∧ decodeWord 0x0001 = none := by decide
theorem test_illformed_5xyk : wellFormedWord 0x5121 = false ∧ decodeWord 0x5121 = none := by decide
theorem test_illformed_8xyk : wellFormedWord 0x8128 = false ∧ decodeWord 0x812F = none := by decide
theorem test_illformed_9xyk : wellFormedWord 0x9121 = false ∧ decodeWord 0x9121 = none := by decide
theorem test_illformed_Exkk : wellFormedWord 0xE09F = false ∧ decodeWord 0xE0A0 = none := by decide
theorem test_illformed_Fxkk : wellFormedWord 0xF075 = false ∧ decodeWord 0xF01D = none := by decide
theorem test_decode_truncated : decode [0x60] = .error .truncated := rfl
theorem test_decode_unknown : decode [0x01, 0x23] = .error (.unknownOpcode 0x0123) := rfl

/-! ### Decoding: the fixed bits from the encoding column, then the fields, most significant bit first -/

theorem test_decode_nop : decodeWord 0b0000000000000000 = some .nop := by decide
theorem test_decode_cls : decodeWord 0b0000000011100000 = some .cls := by decide
theorem test_decode_ret : decodeWord 0b0000000011101110 = some .ret := by decide
theorem test_decode_jp : decodeWord 0b0001001000001000 = some (.jp 0x208) := by decide
theorem test_decode_call : decodeWord 0b0010001000001000 = some (.call 0x208) := by decide
theorem test_decode_seImm : decodeWord 0b0011001100101010 = some (.seImm 3 0x2A) := by decide
theorem test_decode_sneImm : decodeWord 0b0100001100101010 = some (.sneImm 3 0x2A) := by decide
theorem test_decode_seReg : decodeWord 0b0101000100100000 = some (.seReg 1 2) := by decide
theorem test_decode_ldImm : decodeWord 0b0110101011111111 = some (.ldImm 10 0xFF) := by decide
theorem test_decode_addImm : decodeWord 0b0111001000000011 = some (.addImm 2 3) := by decide
theorem test_decode_ldReg : decodeWord 0b1000000100100000 = some (.ldReg 1 2) := by decide
theorem test_decode_orReg : decodeWord 0b1000000100100001 = some (.orReg 1 2) := by decide
theorem test_decode_andReg : decodeWord 0b1000000100100010 = some (.andReg 1 2) := by decide
theorem test_decode_xorReg : decodeWord 0b1000000100100011 = some (.xorReg 1 2) := by decide
theorem test_decode_addReg : decodeWord 0b1000000100100100 = some (.addReg 1 2) := by decide
theorem test_decode_sub : decodeWord 0b1000000100100101 = some (.sub 1 2) := by decide
theorem test_decode_shr : decodeWord 0b1000001110100110 = some (.shr 3 10) := by decide
theorem test_decode_subn : decodeWord 0b1000000100100111 = some (.subn 1 2) := by decide
theorem test_decode_shl : decodeWord 0b1000001110101110 = some (.shl 3 10) := by decide
theorem test_decode_sneReg : decodeWord 0b1001000100100000 = some (.sneReg 1 2) := by decide
theorem test_decode_ldI : decodeWord 0b1010001000001010 = some (.ldI 0x20A) := by decide
theorem test_decode_jpV0 : decodeWord 0b1011001100000000 = some (.jpV0 0x300) := by decide
theorem test_decode_rnd : decodeWord 0b1100001100001111 = some (.rnd 3 0x0F) := by decide
theorem test_decode_drw : decodeWord 0b1101000000010010 = some (.drw 0 1 2) := by decide
theorem test_decode_skp : decodeWord 0b1110010010011110 = some (.skp 4) := by decide
theorem test_decode_sknp : decodeWord 0b1110010010100001 = some (.sknp 4) := by decide
theorem test_decode_ldVxDt : decodeWord 0b1111001100000111 = some (.ldVxDt 3) := by decide
theorem test_decode_ldVxK : decodeWord 0b1111010100001010 = some (.ldVxK 5) := by decide
theorem test_decode_ldDtVx : decodeWord 0b1111001100010101 = some (.ldDtVx 3) := by decide
theorem test_decode_ldStVx : decodeWord 0b1111001100011000 = some (.ldStVx 3) := by decide
theorem test_decode_addI : decodeWord 0b1111001000011110 = some (.addI 2) := by decide
theorem test_decode_ldF : decodeWord 0b1111000000101001 = some (.ldF 0) := by decide
theorem test_decode_ldB : decodeWord 0b1111000000110011 = some (.ldB 0) := by decide
theorem test_decode_stRegs : decodeWord 0b1111001001010101 = some (.stRegs 2) := by decide
theorem test_decode_ldRegs : decodeWord 0b1111001001100101 = some (.ldRegs 2) := by decide
theorem test_table_word : decodeTableWord 16 0xA20A = some (.ldI 0x20A) := by decide

/-! ### One step: control flow -/

/-- CF1 -/
theorem test_nop : afterHas 0x0000 (reset.setDt 3) (fun t => t.pc == 0x202 && t.dt == 2) = true := by decide
/-- CF2 -/
theorem test_ret : afterHas 0x00EE (reset.setStack (reset.stack.set 0 0x206) 1)
    (fun t => t.pc == 0x206 && t.sp == 0 && t.stack[0] == 0x206) = true := by decide
/-- CF3 -/
theorem test_ret_empty : faultOf 0x00EE reset = some (.stackUnderflow 0x200) := by decide
/-- CF5: a jump to itself changes nothing -/
theorem test_jp : after 0x1200 reset = some (reset.placeWord 0x1200) := by decide
/-- CF8 -/
theorem test_call : afterHas 0x2208 (withSp reset 15)
    (fun t => t.pc == 0x208 && t.sp == 16 && t.stack[15] == 0x202) = true := by decide
/-- CF9 -/
theorem test_call_full : faultOf 0x2208 (withSp reset 16) = some (.stackOverflow 0x200) := by decide
/-- CF11 -/
theorem test_jpV0 : afterHas 0xBFFF (v1 0 0xFF) (fun t => t.pc == 0x10FE) = true := by decide
/-- CF13: with `pc` at 0xFFF the fetch faults and the state stays -/
theorem test_fetch_fault : hostStep (reset.setPc 0xFFF) = (.fault (.addressOutOfRange 0x1000), reset.setPc 0xFFF) := by decide

/-! ### One step: skips -/

/-- SK1 -/
theorem test_seImm : afterHas 0x332A (v1 3 0x2A) (fun t => t.pc == 0x204) = true := by decide
/-- SK2 -/
theorem test_seImm_not : afterHas 0x332A (v1 3 0x2B) (fun t => t.pc == 0x202) = true := by decide
/-- SK3 -/
theorem test_sneImm_not : afterHas 0x432A (v1 3 0x2A) (fun t => t.pc == 0x202) = true := by decide
/-- SK4 -/
theorem test_sneImm : afterHas 0x432A (v1 3 0x2B) (fun t => t.pc == 0x204) = true := by decide
/-- SK5 -/
theorem test_seReg : afterHas 0x5120 (v2 1 7 2 7) (fun t => t.pc == 0x204) = true := by decide
/-- SK8 -/
theorem test_sneReg : afterHas 0x9120 (v2 1 7 2 8) (fun t => t.pc == 0x204) = true := by decide
/-- SK11 -/
theorem test_skp : afterHas 0xE49E ((v1 4 4).setKey 4 true) (fun t => t.pc == 0x204) = true := by decide
/-- SK14: no masking of `V[x]` -/
theorem test_skp_fault : faultOf 0xE49E ((v1 4 0xFF).setKey 15 true) = some (.keyOperandOutOfRange 0xFF) := by decide
/-- SK15 -/
theorem test_sknp : afterHas 0xE4A1 ((v1 4 4).setKey 4 true) (fun t => t.pc == 0x202) = true := by decide
/-- SK17 -/
theorem test_sknp_fault : faultOf 0xE4A1 (v1 4 0x10) = some (.keyOperandOutOfRange 0x10) := by decide

/-! ### One step: registers -/

/-- AL1 -/
theorem test_ldImm : afterHas 0x6AFF reset (fun t => t.getV 10 == 0xFF && t.pc == 0x202) = true := by decide
/-- AL3 -/
theorem test_addImm : afterHas 0x7203 (v1 2 0xFE) (fun t => t.getV 2 == 1 && t.getV 15 == 0) = true := by decide
/-- AL5: the sum goes to VF as data -/
theorem test_addImm_flag : afterHas 0x7F01 (v1 15 0xFF) (fun t => t.getV 15 == 0) = true := by decide
/-- AL7 -/
theorem test_ldReg : afterHas 0x8120 (v2 1 0x33 2 0x44) (fun t => t.getV 1 == 0x44) = true := by decide
/-- AL8 -/
theorem test_or : afterHas 0x8121 ((v2 1 0xF0 2 0x3C).setV 15 7) (fun t => t.getV 1 == 0xFC && t.getV 15 == 7) = true := by decide
/-- AL9 -/
theorem test_and : afterHas 0x8122 ((v2 1 0xF0 2 0x3C).setV 15 7) (fun t => t.getV 1 == 0x30 && t.getV 15 == 7) = true := by decide
/-- AL10 -/
theorem test_xor : afterHas 0x8123 ((v2 1 0xF0 2 0x3C).setV 15 7) (fun t => t.getV 1 == 0xCC && t.getV 15 == 7) = true := by decide
/-- AL15: no carry at 255, and the old flag is cleared -/
theorem test_addReg : afterHas 0x8124 ((v2 1 0x7F 2 0x80).setV 15 1) (fun t => t.getV 1 == 0xFF && t.getV 15 == 0) = true := by decide
/-- AL17: with `x = 15` the flag remains -/
theorem test_addReg_flag : afterHas 0x8F14 (v2 15 0xF0 1 0x20) (fun t => t.getV 15 == 1) = true := by decide
/-- AL20 -/
theorem test_sub : afterHas 0x8125 (v2 1 0x10 2 0x20) (fun t => t.getV 1 == 0xF0 && t.getV 15 == 0) = true := by decide
/-- AL22: equal operands do not borrow -/
theorem test_sub_equal : afterHas 0x8125 (v2 1 0x20 2 0x20) (fun t => t.getV 1 == 0 && t.getV 15 == 1) = true := by decide
/-- AL30: the field `y` is ignored -/
theorem test_shr : afterHas 0x83A6 ((v2 3 4 10 0xFF).setV 15 1)
    (fun t => t.getV 3 == 2 && t.getV 15 == 0 && t.getV 10 == 0xFF) = true := by decide
/-- AL31: with `x = 15` the result remains -/
theorem test_shr_flag : afterHas 0x8F06 (v1 15 5) (fun t => t.getV 15 == 2) = true := by decide
/-- AL33 -/
theorem test_subn : afterHas 0x8127 (v2 1 0x10 2 0x20) (fun t => t.getV 1 == 0x10 && t.getV 15 == 1) = true := by decide
/-- AL34 -/
theorem test_subn_borrow : afterHas 0x8127 (v2 1 0x20 2 0x10) (fun t => t.getV 1 == 0xF0 && t.getV 15 == 0) = true := by decide
/-- AL37 -/
theorem test_shl : afterHas 0x830E (v1 3 0x81) (fun t => t.getV 3 == 2 && t.getV 15 == 1) = true := by decide
/-- AL42: with `x = 15` the result remains -/
theorem test_shl_flag : afterHas 0x8F0E (v1 15 0x41) (fun t => t.getV 15 == 0x82) = true := by decide
/-- AL43, for whatever value is drawn -/
theorem test_rnd : ∃ t, exec (.rnd 3 0x0F) reset = .next t ∧ t.getV 3 = Config.rand8 0 &&& 0x0F := ⟨_, rfl, rfl⟩
/-- AL44 -/
theorem test_rnd_zero : ∃ t, exec (.rnd 3 0) (v1 3 9) = .next t ∧ t.getV 3 = 0 := ⟨_, rfl, BitVec.and_zero⟩

/-! ### One step: index register and memory -/

/-- IX2 -/
theorem test_ldI : afterHas 0xAFFF reset (fun t => t.ireg == 0xFFF) = true := by decide
/-- IX4: wraps at 65536, no flag -/
theorem test_addI : afterHas 0xF21E ((v1 2 1).setI 0xFFFF) (fun t => t.ireg == 0 && t.getV 15 == 0) = true := by decide
/-- IX10: the whole byte, no masking -/
theorem test_ldF : afterHas 0xF029 (v1 0 0xFF) (fun t => t.ireg == 0x4FB) = true := by decide
/-- IX15 -/
theorem test_ldB : afterHas 0xF033 ((v1 0 7).setI 0xFFD)
    (fun t => t.mem.read 0xFFD == 0 && t.mem.read 0xFFE == 0 && t.mem.read 0xFFF == 7) = true := by decide
/-- IX16 -/
theorem test_ldB_fault : faultOf 0xF033 ((v1 0 7).setI 0xFFE) = some (.addressOutOfRange 0x1000) := by decide
/-- IX18: three registers, the fourth byte and `I` untouched -/
theorem test_stRegs : afterHas 0xF255 (((v2 0 0x11 1 0x22).setV 2 0x33).setV 3 0x44 |>.setI 0x400)
    (fun t => t.mem.readBytes 0x400 4 == [0x11, 0x22, 0x33, 0] && t.ireg == 0x400) = true := by decide
/-- IX20 -/
theorem test_stRegs_fault : faultOf 0xF155 ((v1 0 0x11).setI 0xFFF) = some (.addressOutOfRange 0x1000) := by decide
/-- IX23 -/
theorem test_ldRegs : afterHas 0xF265 (withI (v1 3 0x77) 0x300 [2, 3, 4, 5])
    (fun t => t.getV 0 == 2 && t.getV 1 == 3 && t.getV 2 == 4 && t.getV 3 == 0x77 && t.ireg == 0x300) = true := by decide
/-- IX26: the glyph of digit 2, under the premise that GLYPH is the default table -/
theorem test_ldRegs_glyph (h : Config.UsesDefaultGlyph) :
    ∃ t, exec (.ldRegs 2) (reset.setI 10) = .next t ∧ t.getV 0 = 0xF0 ∧ t.getV 1 = 0x10 ∧ t.getV 2 = 0xF0 :=
  ⟨_, rfl, h 10 (by decide), h 11 (by decide), h 12 (by decide)⟩

/-! ### One step: display -/

/-- The pixels of DR1: an 8-pixel row at column 60 wraps to columns 0 to 3 of the same row. -/
def dr1 : State := withI (v2 0 60 1 0) 0x300 [0xFF]

/-- DR1 -/
theorem test_drw : afterHas 0xD011 dr1 (fun t => (List.finRange 64).all fun c =>
    t.disp.pixel c 0 == decide (c.val ≥ 60 ∨ c.val ≤ 3)) = true := by decide +kernel
/-- DR5: the collision of row 0 survives the empty row 1 -/
theorem test_drw_collision : afterHas 0xD012 ((withI (v2 0 0 1 0) 0x300 [0xC0, 0x00]).setDisp (Display.clear.setPixel 0 0 true))
    (fun t => !t.disp.pixel 0 0 && t.disp.pixel 1 0 && t.getV 15 == 1) = true := by decide
/-- DR13 -/
theorem test_cls : afterHas 0x00E0 ((v1 15 1).setDisp ((Display.clear.setPixel 5 0 true).setPixel 63 31 true))
    (fun t => t.disp == Display.clear && t.getV 15 == 1) = true := by decide +kernel

/-! ### One step: timers and keys -/

/-- TM1 -/
theorem test_ldVxDt : afterHas 0xF307 (reset.setDt 5) (fun t => t.getV 3 == 5 && t.dt == 4) = true := by decide
/-- TM4 -/
theorem test_ldDtVx : afterHas 0xF315 (v1 3 10) (fun t => t.dt == 9) = true := by decide
/-- TM8 -/
theorem test_ldStVx : afterHas 0xF318 (v1 3 2) (fun t => t.st == 1 && !t.beep) = true := by decide
/-- TM9 -/
theorem test_ldStVx_beep : afterHas 0xF318 (v1 3 1) (fun t => t.st == 0 && t.beep) = true := by decide
/-- TM13 -/
theorem test_timers_stay : afterHas 0x0000 reset (fun t => t.dt == 0 && t.st == 0 && !t.beep) = true := by decide
/-- TM15: an unknown word, with no decay -/
theorem test_unknown : faultOf 0x0001 (reset.setDt 3) = some (.unknownOpcode 1) ∧
    (hostStep ((reset.setDt 3).placeWord 1)).2 = ((reset.setDt 3).placeWord 1).setPc 0x202 := by decide
/-- KW1 -/
theorem test_ldVxK : afterHas 0xF50A ((reset.setKey 3 true).setKey 9 true) (fun t => t.getV 5 == 3 && t.pc == 0x202) = true := by decide
/-- KW2: a waiting step decays -/
theorem test_ldVxK_wait : afterHas 0xF50A (((v1 5 7).setDt 2).setSt 1)
    (fun t => t.pc == 0x200 && t.getV 5 == 7 && t.dt == 1 && t.st == 0 && t.beep) = true := by decide

/-! ### Host operations -/

/-- H4 -/
theorem test_load : (performAll [.load [0x11, 0x22, 0x33, 0x44], .load [0xAA, 0xBB]] reset).mem.readBytes 0x200 4 =
    [0xAA, 0xBB, 0x33, 0x44] := by decide
/-- H1 -/
theorem test_load_large : (perform (.load (List.replicate 3585 1)) reset).1 = .failed (.romTooLarge 3585) := by
  simp only [perform, hostLoad, List.length_replicate]
  rw [if_pos (by decide)]
/-- H5 -/
theorem test_setKey : perform (.setKey 16 true) reset = (.failed (.keyIndexOutOfRange 16), reset) := by decide
/-- H7 -/
theorem test_takeBeep : (perform .takeBeep (reset.setBeep true)).1 = .beep true ∧
    (perform .takeBeep (perform .takeBeep (reset.setBeep true)).2).1 = .beep false := by decide

/-! ### Witnesses: concrete states and operands that meet the hypotheses of the statements, at boundary values -/

/-- A state whose next word is `w`. -/
abbrev onWord (w : Word) (s : State) : State := s.placeWord w

theorem witness_EncodeDecodeInverse : decodeWord 0xFF65 = some (.ldRegs 15) := by decide
theorem witness_FetchIsBigEndian : (reset.setPc 4094).pc.toNat ≤ 4094 := by decide
theorem witness_FetchOutsideMemoryFaults : 4094 < (reset.setPc 4095).pc.toNat := by decide
theorem witness_UnmatchedWordFaults : fetch (onWord 0xFFFF reset) = some 0xFFFF ∧ wellFormedWord 0xFFFF = false := by decide
theorem witness_StepRunsDecodedInstruction :
    fetch (onWord 0xDFFF reset) = some 0xDFFF ∧ decodeWord 0xDFFF = some (.drw 15 15 15) := by decide
theorem witness_EveryOkStepDecaysTimers : ∃ t, step ((reset.setSt 1).setDt 255) = .next t := ⟨_, rfl⟩
theorem witness_NopOnlyAdvances : fetch (reset.setPc 4094) = some 0x0000 := by decide
theorem witness_CallPushesReturnAddress : (withSp reset 15).sp.val < 16 ∧ (withSp reset 16).sp.val = 16 := by decide
theorem witness_ReturnPopsIntoPc : (withSp reset 16).sp.val = 15 + 1 ∧ (withSp reset 1).sp.val = 0 + 1 ∧ reset.sp.val = 0 := by decide
theorem witness_ReturnUndoesCall : ∃ t, exec (.call 0x208) (withSp reset 15) = .next t ∧ t.stack = t.stack ∧ t.sp = t.sp :=
  ⟨_, rfl, rfl, rfl⟩
theorem witness_SkipOnKeyState : ((v1 4 15).getV 4).toNat < 16 ∧ 15 < ((v1 4 16).getV 4).toNat := by decide
theorem witness_DecimalDigitsStored : (reset.setI 4093).mem.wf = true ∧ (reset.setI 4093).ireg.toNat ≤ 4093 := by decide
theorem witness_RegistersStored : (reset.setI 4080).mem.wf = true ∧ (reset.setI 4080).ireg.toNat + (15 : Reg).val ≤ 4095 := by decide
theorem witness_RegistersLoaded : (reset.setI 4095).ireg.toNat + (0 : Reg).val ≤ 4095 := by decide
theorem witness_AccessOutsideMemoryFaults :
    ((1 : Nibble) ≠ 0 ∧ 4095 < (reset.setI 4096).ireg.toNat + (1 : Nibble).toNat - 1) ∧
    4095 < (reset.setI 4094).ireg.toNat + 2 ∧ 4095 < (reset.setI 4081).ireg.toNat + (15 : Reg).val := by decide
theorem witness_LoadUndoesStore : reset.mem.wf = true ∧
    ∃ t, exec (.stRegs 15) (reset.setI 4080) = .next t ∧ t.mem = t.mem ∧ t.ireg = t.ireg := ⟨rfl, _, rfl, rfl, rfl⟩
theorem witness_StoreVisibleToFetch : reset.mem.wf = true ∧
    ∃ t, exec (.stRegs 1) (reset.setI 512) = .next t ∧ (reset.setMem t.mem).mem = t.mem ∧ (1 : Reg).val = (0 : Reg).val + 1 ∧
      (1 : Reg) ≤ 1 ∧ (reset.setMem t.mem).pc.toNat = (reset.setI 512).ireg.toNat + (0 : Reg).val :=
  ⟨rfl, _, rfl, rfl, rfl, Nat.le_refl 1, rfl⟩
theorem witness_DrawInvertsSpritePixels :
    ((0 : Nibble) = 0 ∨ (reset.setI 0xFFFF).ireg.toNat + (0 : Nibble).toNat - 1 ≤ 4095) ∧
    ((15 : Nibble) = 0 ∨ (reset.setI 4081).ireg.toNat + (15 : Nibble).toNat - 1 ≤ 4095) := by decide
/-- A draw with a collision and a draw without one. -/
theorem witness_DrawInvertsSpritePixels_flags :
    ((after 0xD011 (dr1.setDisp (Display.clear.setPixel 60 0 true))).map fun t => (t.disp.pixel 60 0, t.getV 15)) = some (false, 1) ∧
    ((after 0xD011 dr1).map fun t => (t.disp.pixel 60 0, t.getV 15)) = some (true, 0) := by decide
theorem witness_DrawTwiceRestoresDisplay :
    (0 : Reg) ≠ 15 ∧ (1 : Reg) ≠ 15 ∧ ∃ t, exec (.drw 0 1 1) dr1 = .next t ∧ t.setPc 0x200 = { t with pc := (t.setPc 0x200).pc } :=
  ⟨by decide, by decide, _, rfl, rfl⟩
theorem witness_WaitForKey : (∀ k : KeyNo, reset.key[k] = false) ∧ (reset.setKey 15 true).key[(15 : KeyNo)] = true ∧
    ∀ j : KeyNo, j < 15 → (reset.setKey 15 true).key[j] = false := by decide
theorem witness_ReadDelayTimer : fetch (onWord 0xFF07 reset) = some (BitVec.ofNat 16 (0xF007 + (15 : Reg).val * 256)) := by decide
theorem witness_LoadedTimerDecaysAtOnce : fetch (onWord 0xFF15 reset) = some (BitVec.ofNat 16 (0xF015 + (15 : Reg).val * 256)) ∧
    fetch (onWord 0xFF18 reset) = some (BitVec.ofNat 16 (0xF018 + (15 : Reg).val * 256)) := by decide
theorem witness_BeepLatchedUntilHostTakesIt :
    (∃ t, step (reset.setSt 1) = .next t ∧ t.beep = true ∧ (reset.setSt 1).beep = false) ∧
    ∃ t, step (reset.setBeep true) = .next t ∧ (reset.setBeep true).beep = true := ⟨⟨_, rfl, rfl, rfl⟩, _, rfl, rfl⟩
theorem witness_OnlyListedCausesMovePc : (∃ t, exec (.ldVxK 15) reset = .next t ∧ t.pc = reset.pc - 2) ∧
    (∃ t, exec (.skp 0) (reset.setKey 0 true) = .next t ∧ t.pc = reset.pc + 2) ∧
    (∃ t, exec .ret (withSp reset 16) = .next t) ∧ ∃ t, step reset = .next t :=
  ⟨⟨_, rfl, by decide⟩, ⟨_, rfl, by decide⟩, ⟨_, rfl⟩, _, rfl⟩
theorem witness_ElementsWrittenOnlyByTheirInstructions :
    (∃ t, exec (.ldI 0xFFF) reset = .next t ∧ t.ireg ≠ reset.ireg) ∧ (∃ t, exec (.call 0) reset = .next t ∧ t.stack ≠ reset.stack ∧ t.sp ≠ reset.sp) ∧
    (∃ t, exec (.stRegs 0) (withI (v1 0 1) 4095 []) = .next t ∧ t.mem ≠ (withI (v1 0 1) 4095 []).mem) ∧
    (∃ t, exec (.ldDtVx 0) (v1 0 1) = .next t ∧ t.dt ≠ (v1 0 1).dt) ∧ (∃ t, exec (.ldStVx 0) (v1 0 1) = .next t ∧ t.st ≠ (v1 0 1).st) ∧
    (∃ t, exec .cls (reset.setDisp (Display.clear.setPixel 63 31 true)) = .next t ∧
      t.disp ≠ (reset.setDisp (Display.clear.setPixel 63 31 true)).disp) ∧
    (∃ t, exec (.rnd 0 0) reset = .next t ∧ t.draws ≠ reset.draws) ∧
    (∃ t, exec (.sknp 15) reset = .next t ∧ t.pc ≠ reset.pc) ∧
    (∃ t, exec (.shr 0 15) (v1 0 1) = .next t ∧ t.getV 15 ≠ (v1 0 1).getV 15) :=
  ⟨⟨_, rfl, by decide⟩, ⟨_, rfl, by decide, by decide⟩, ⟨_, rfl, by decide⟩, ⟨_, rfl, by decide⟩, ⟨_, rfl, by decide⟩,
    ⟨_, rfl, by decide +kernel⟩, ⟨_, rfl, by decide⟩, ⟨_, rfl, by decide⟩, ⟨_, rfl, by decide⟩⟩
theorem witness_RegistersChangeOnlyByTheirWriters :
    (∃ t, exec (.ldRegs 14) reset = .next t) ∧ ¬ WritesReg (.ldRegs 14) 15 := ⟨⟨_, rfl⟩, by unfold WritesReg; decide⟩
theorem witness_MemoryChangesOnlyAtStoredBytes : reset.mem.wf = true ∧ (∃ t, exec (.stRegs 15) (reset.setI 4080) = .next t) ∧
    4079 < indexBase (reset.setI 4080) ∧ indexBase (reset.setI 4080) + storeLength (.stRegs 15) ≤ 4096 :=
  ⟨rfl, ⟨_, rfl⟩, by decide, by decide⟩
theorem witness_InstructionsRunOrRaiseTheirFault :
    Runs (.call 0) (withSp reset 15) ∧ ¬ Runs (.call 0) (withSp reset 16) ∧ Runs (.drw 0 0 1) (reset.setI 4095) ∧
    ¬ Runs (.drw 0 0 1) (reset.setI 4096) ∧ Runs (.skp 0) (v1 0 15) ∧ ¬ Runs (.sknp 0) (v1 0 16) ∧ ¬ Runs .ret reset ∧
    exec .ret reset = .fault (.stackUnderflow 0x1FE) :=
  ⟨by unfold Runs; decide, by unfold Runs; decide, by unfold Runs; decide, by unfold Runs; decide, by unfold Runs; decide,
    by unfold Runs; decide, by unfold Runs; decide, rfl⟩
/-- A state at the bounds: `pc` 4094, one return address of 4096 in use, and a step that answers `ok`. -/
def atBounds : State := (reset.setStack (reset.stack.set 0 4096) 1).setPc 4094
theorem witness_StepKeepsInvariant : atBounds.Inv ∧ ∃ t, step atBounds = .next t :=
  ⟨⟨by decide, by decide, by decide⟩, _, rfl⟩
theorem witness_HostScheduleKeepsInvariant : atBounds.Inv := ⟨by decide, by decide, by decide⟩
theorem witness_LoadWritesPayloadOrNothing : reset.mem.wf = true ∧ (List.replicate 3584 (1 : Byte)).length ≤ 3584 ∧
    3584 < (List.replicate 3585 (1 : Byte)).length := 
    ⟨rfl, List.length_replicate.le, by rw [List.length_replicate]; decide⟩
theorem witness_SetKeySetsOneKey : 15 < 16 ∧ 16 ≤ 16 := by decide
theorem witness_FailingStepOnlyAdvancesPc : (onWord 0x00EE reset).pc.toNat ≤ 4094 ∧
    step (onWord 0x00EE reset) = .fault (.stackUnderflow 0x200) := ⟨by decide, rfl⟩
theorem witness_QuiescentStateStays : Quiescent (onWord 0x1200 reset) := ⟨⟨0x200, by decide, by decide⟩, rfl, rfl⟩

end Sys2Proof.Tests
end

/-! PROOFS. The program counter (spec/10_state.md R24): what each instruction that may move it does to it, that no other
instruction and no operation of the host but `create` and `reset` moves it, and the table of R24 put together from these. -/

namespace Sys2Proof.Machine

variable {i : Instr} {s t : State}

/-- The instructions that R24 lists as moving `pc` after fetch. -/
def movesPc : Instr → Bool
  | .ret | .jp _ | .call _ | .jpV0 _ | .ldVxK _ => true
  | .seImm _ _ | .sneImm _ _ | .seReg _ _ | .sneReg _ _ | .skp _ | .sknp _ => true
  | _ => false

/-- Every other instruction writes elements other than `pc`; the four that access memory may also fault. -/
theorem exec_pc_of_not_movesPc (h : exec i s = .next t) (hi : movesPc i = false) : t.pc = s.pc := by
  cases i with
  | ret | jp | call | jpV0 | ldVxK | seImm | sneImm | seReg | sneReg | skp | sknp => cases hi
  | drw | ldB | stRegs | ldRegs => exact (inside_of_withBytesAtI h).2 ▸ rfl
  | _ => exact Host.Outcome.next.inj h ▸ rfl

/-! ### The skips -/

theorem State.skipIf_beq_pc {α : Type} [DecidableEq α] (s : State) (a b : α) :
    (s.skipIf (a == b)).pc = if a = b then s.pc + 2 else s.pc := by
  simp [State.skipIf_pc]

theorem State.skipIf_bne_pc {α : Type} [DecidableEq α] (s : State) (a b : α) :
    (s.skipIf (a != b)).pc = if a = b then s.pc else s.pc + 2 := by
  simp [State.skipIf_pc]

/-- A key skip that does not fault reads a key that exists, and skips when its state is the wanted one. -/
theorem skipOnKey_cases {x : Reg} {want : Bool} (h : skipOnKey x want s = .next t) :
    ∃ b, s.key[(s.getV x).toNat]? = some b ∧ t = s.skipIf (b == want) := by
  by_cases hx : (s.getV x).toNat ≤ 15
  · rw [skipOnKey, keyNumber_of_le hx] at h
    exact ⟨_, Vector.getElem?_eq_getElem (Nat.lt_succ_of_le hx), (Host.Outcome.next.inj h).symm⟩
  · rw [skipOnKey, keyNumber_of_gt (by omega)] at h
    cases h

theorem exec_skp_pc {x : Reg} (h : exec (.skp x) s = .next t) :
    t.pc = if s.key[(s.getV x).toNat]? = some true then s.pc + 2 else s.pc := by
  obtain ⟨b, hb, rfl⟩ := skipOnKey_cases h
  simp [hb, State.skipIf_pc]

theorem exec_sknp_pc {x : Reg} (h : exec (.sknp x) s = .next t) :
    t.pc = if s.key[(s.getV x).toNat]? = some true then s.pc else s.pc + 2 := by
  obtain ⟨b, hb, rfl⟩ := skipOnKey_cases h
  cases b <;> simp [hb]

/-! ### The jumps, the call and the return, the key wait -/

/-- A return that does not fault has an entry in use, and goes to the newest. -/
theorem exec_ret_pc (h : exec .ret s = .next t) : ∃ n : Fin 16, s.sp.val = n.val + 1 ∧ t.pc = s.stack[n] := by
  change execRet s = .next t at h
  cases hsp : s.sp.val with
  | zero =>
    rw [execRet, State.pop_of_empty hsp] at h
    cases h
  | succ n =>
    have hn : n < 16 := by omega
    rw [execRet, State.pop_of_succ hsp hn] at h
    exact ⟨⟨n, hn⟩, rfl, Host.Outcome.next.inj h ▸ rfl⟩

/-- A call that does not fault goes to its target, whatever it pushed. -/
theorem exec_call_pc {nnn : Imm12} (h : exec (.call nnn) s = .next t) : t.pc = absolute nnn := by
  change execCall nnn s = .next t at h
  unfold execCall at h
  cases hp : s.push s.pc with
  | none => rw [hp] at h; cases h
  | some u => rw [hp] at h; exact Host.Outcome.next.inj h ▸ rfl

/-- The key wait goes back to itself exactly while no key is pressed. -/
theorem exec_ldVxK_pc {x : Reg} (h : exec (.ldVxK x) s = .next t) :
    t.pc = if ∀ k : KeyNo, s.key[k] = false then s.pc - 2 else s.pc := by
  change execLdVxK x s = .next t at h
  simp only [← State.lowestKey_eq_none_iff]
  unfold execLdVxK at h
  cases hk : s.lowestKey with
  | none => rw [hk] at h; exact Host.Outcome.next.inj h ▸ rfl
  | some k => rw [hk] at h; exact Host.Outcome.next.inj h ▸ rfl

/-! ### The host -/

@[simp] theorem hostReset_pc (s : State) : (hostReset s).pc = 512 := rfl

@[simp] theorem hostLoad_pc (s : State) (bytes : List Byte) : (hostLoad s bytes).2.pc = s.pc := by
  unfold hostLoad
  split <;> rfl

@[simp] theorem hostSetKey_pc (s : State) (k : Nat) (b : Bool) : (hostSetKey s k b).2.pc = s.pc := by
  unfold hostSetKey
  split <;> rfl

/-! ### The table of R24 -/

/-- Settles O44: the listed instructions one by one, every other by `exec_pc_of_not_movesPc`; the step by `step_cases`,
since the decay keeps `pc`; the host by its operations. -/
theorem onlyListedCausesMovePc : Obligations.OnlyListedCausesMovePc := by
  refine ⟨fun i s t h => ?_, fun s t h => ?_, fun s => ⟨hostReset_pc s, hostReset_pc s⟩,
    fun bytes k b s => ⟨hostLoad_pc s bytes, hostSetKey_pc s k b, rfl, rfl⟩⟩
  · cases i with
    | seImm x nn => exact Host.Outcome.next.inj h ▸ s.skipIf_beq_pc (s.getV x) nn
    | sneImm x nn => exact Host.Outcome.next.inj h ▸ s.skipIf_bne_pc (s.getV x) nn
    | seReg x y => exact Host.Outcome.next.inj h ▸ s.skipIf_beq_pc (s.getV x) (s.getV y)
    | sneReg x y => exact Host.Outcome.next.inj h ▸ s.skipIf_bne_pc (s.getV x) (s.getV y)
    | skp => exact exec_skp_pc h
    | sknp => exact exec_sknp_pc h
    | jp nnn => exact Host.Outcome.next.inj h ▸ toNat_absolute nnn
    | jpV0 nnn => exact Host.Outcome.next.inj h ▸ toNat_offsetByV0 s nnn
    | call nnn => exact exec_call_pc h ▸ toNat_absolute nnn
    | ret => exact exec_ret_pc h
    | ldVxK => exact exec_ldVxK_pc h
    | _ => exact exec_pc_of_not_movesPc h rfl
  · obtain ⟨w, i, u, hw, hi, hu, rfl⟩ := step_cases h
    exact ⟨w, i, u, hw, hi, hu, u.decay_pc⟩

end Sys2Proof.Machine

/-! PROOFS. The encoding (spec/30_encoding.md): a byte sequence decodes as the word its first two bytes make. -/

namespace Sys2Proof.Machine

/-- The first two bytes make the word that is decoded, and what follows them is left (30_encoding R70). -/
theorem decode_of_decodeWord {hi lo : Byte} {w : Word} {i : Instr} (rest : List Byte) (hw : wordOfBytes hi lo = w)
    (hd : decodeWord w = some i) : decode (hi :: lo :: rest) = .ok (i, rest) := by
  simp [decode, hw, hd]

/-- Settles O4: each pair of bytes is put together to its word, and `decode_of_decodeWord` takes the word's fields. -/
theorem workedEncodingsDecode : Obligations.WorkedEncodingsDecode := by
  have h6005 : wordOfBytes 0x60 0x05 = 0x6005 := by decide
  have hA20A : wordOfBytes 0xA2 0x0A = 0xA20A := by decide
  have h2208 : wordOfBytes 0x22 0x08 = 0x2208 := by decide
  have hE49E : wordOfBytes 0xE4 0x9E = 0xE49E := by decide
  have h6001 : wordOfBytes 0x60 0x01 = 0x6001 := by decide
  exact ⟨decode_of_decodeWord [] h6005 (by decide), decode_of_decodeWord [] hA20A (by decide),
    decode_of_decodeWord [] h2208 (by decide), decode_of_decodeWord [] hE49E (by decide),
    decode_of_decodeWord [] h6001 (by decide), h6005, hA20A, h2208, hE49E, h6001⟩

end Sys2Proof.Machine

/-! PROOFS. The no-op and the jumps (spec/40_step_and_control_flow.md R91, R93, R95): the words of 1nnn and Bnnn as numbers, a
step from its fetched and decoded word, the decay as a whole state, and what the three instructions do. -/

namespace Sys2Proof.Machine

variable {s : State}

/-! ### The words of the jumps -/

theorem decodeWord_jp (nnn : Imm12) : decodeWord (BitVec.ofNat 16 (0x1000 + nnn.toNat)) = some (.jp nnn) := by
  have hw : wordA 0x1 nnn = BitVec.ofNat 16 (0x1000 + nnn.toNat) := wordA_eq_ofNat 0x1 nnn
  simp [← hw, decodeWord]

theorem decodeWord_jpV0 (nnn : Imm12) : decodeWord (BitVec.ofNat 16 (0xB000 + nnn.toNat)) = some (.jpV0 nnn) := by
  have hw : wordA 0xB nnn = BitVec.ofNat 16 (0xB000 + nnn.toNat) := wordA_eq_ofNat 0xB nnn
  simp [← hw, decodeWord]

/-! ### The step and its decay -/

/-- The converse of `step_cases`, faults included: a step is the meaning of the word it fetches, then the decay. -/
theorem step_of_decodeWord {w : Word} {i : Instr} (hf : fetch s = some w) (hd : decodeWord w = some i) :
    step s = finish (exec i s.advance) := by
  simp only [step, stepWith, hf, hd]

/-- The decay as one update of the two timers and the beep latch (45_timers_keys R154). -/
theorem State.decay_eq (s : State) : s.decay = { s with
    dt := if s.dt = 0 then 0 else s.dt - 1
    st := if s.st = 0 then 0 else s.st - 1
    beep := if s.st = 1 then true else s.beep } := by
  have hbeep : (s.beep || s.st == 1) = if s.st = 1 then true else s.beep := by
    by_cases h : s.st = 1
    · rw [if_pos h, beq_iff_eq.2 h, Bool.or_true]
    · rw [if_neg h, beq_false_of_ne h, Bool.or_false]
  rw [← hbeep]
  rfl

/-! ### The three instructions -/

theorem exec_nop (s : State) : exec .nop s = .next s := rfl

theorem exec_jp (nnn : Imm12) (s : State) : exec (.jp nnn) s = .next (s.setPc (absolute nnn)) := rfl

theorem exec_jpV0 (nnn : Imm12) (s : State) : exec (.jpV0 nnn) s = .next (s.setPc (offsetByV0 s nnn)) := rfl

/-- Settles O10: the step is the decay of the advanced state, which the no-op leaves alone. -/
theorem nopOnlyAdvances : Obligations.NopOnlyAdvances := by
  have hd : decodeWord 0x0000 = some .nop := by decide
  refine ⟨hd, exec_nop, fun s hf => ?_⟩
  calc step s = finish (exec .nop s.advance) := step_of_decodeWord hf hd
    _ = .next s.advance.decay := by rw [exec_nop]; rfl
    _ = _ := by rw [State.decay_eq]; rfl

/-- Settles O11: the target is `nnn` zero-extended, the word of that number. -/
theorem jumpSetsPc : Obligations.JumpSetsPc := by
  intro nnn s
  have habs : absolute nnn = BitVec.ofNat 16 nnn.toNat := (BitVec.ofNat_toNat 16 nnn).symm
  exact ⟨decodeWord_jp nnn, by rw [exec_jp, habs]; rfl⟩

/-- Settles O12: the sum of a byte and twelve bits is below 65536, so `toNat_offsetByV0` gives it unreduced. -/
theorem jumpAddsV0 : Obligations.JumpAddsV0 := fun nnn s =>
  ⟨decodeWord_jpV0 nnn, _, exec_jpV0 nnn s, toNat_offsetByV0 s nnn, rfl⟩

end Sys2Proof.Machine

/-! PROOFS. The skips on values (spec/41_skips.md R100 to R103): the words of 3xnn, 4xnn, 5xy0 and 9xy0 as numbers, a skip on
equality and on difference as a whole state, and what the four instructions do. -/

namespace Sys2Proof.Machine

/-! ### The words of the skips on values -/

theorem decodeWord_seImm (x : Reg) (nn : Byte) :
    decodeWord (BitVec.ofNat 16 (0x3000 + x.val * 256 + nn.toNat)) = some (.seImm x nn) := by
  have hw : wordXI 0x3 x nn = BitVec.ofNat 16 (0x3000 + x.val * 256 + nn.toNat) := wordXI_eq_ofNat 0x3 x nn
  simp [← hw, decodeWord]

theorem decodeWord_sneImm (x : Reg) (nn : Byte) :
    decodeWord (BitVec.ofNat 16 (0x4000 + x.val * 256 + nn.toNat)) = some (.sneImm x nn) := by
  have hw : wordXI 0x4 x nn = BitVec.ofNat 16 (0x4000 + x.val * 256 + nn.toNat) := wordXI_eq_ofNat 0x4 x nn
  simp [← hw, decodeWord]

theorem decodeWord_seReg (x y : Reg) :
    decodeWord (BitVec.ofNat 16 (0x5000 + x.val * 256 + y.val * 16)) = some (.seReg x y) := by
  have hw : wordXY 0x5 x y 0x0 = BitVec.ofNat 16 (0x5000 + x.val * 256 + y.val * 16) := wordXY_eq_ofNat 0x5 x y 0x0
  simp [← hw, decodeWord]

theorem decodeWord_sneReg (x y : Reg) :
    decodeWord (BitVec.ofNat 16 (0x9000 + x.val * 256 + y.val * 16)) = some (.sneReg x y) := by
  have hw : wordXY 0x9 x y 0x0 = BitVec.ofNat 16 (0x9000 + x.val * 256 + y.val * 16) := wordXY_eq_ofNat 0x9 x y 0x0
  simp [← hw, decodeWord]

/-! ### A skip on equality, and on difference -/

/-- A skip on equality adds 2 to `pc` and changes nothing else, and without it changes nothing (R106). -/
theorem State.skipIf_beq (s : State) (a b : Byte) : s.skipIf (a == b) = if a = b then { s with pc := s.pc + 2 } else s := by
  by_cases h : a = b
  · rw [if_pos h, beq_iff_eq.2 h]; rfl
  · rw [if_neg h, beq_false_of_ne h]; rfl

/-- A skip on difference is the complement of `State.skipIf_beq`. -/
theorem State.skipIf_bne (s : State) (a b : Byte) : s.skipIf (a != b) = if a = b then s else { s with pc := s.pc + 2 } := by
  by_cases h : a = b
  · rw [if_pos h, bne_eq_false_iff_eq.2 h]; rfl
  · rw [if_neg h, bne_iff_ne.2 h]; rfl

/-! ### The four instructions -/

theorem exec_seImm (x : Reg) (nn : Byte) (s : State) :
    exec (.seImm x nn) s = .next (if s.getV x = nn then { s with pc := s.pc + 2 } else s) :=
  congrArg Host.Outcome.next (s.skipIf_beq (s.getV x) nn)

theorem exec_sneImm (x : Reg) (nn : Byte) (s : State) :
    exec (.sneImm x nn) s = .next (if s.getV x = nn then s else { s with pc := s.pc + 2 }) :=
  congrArg Host.Outcome.next (s.skipIf_bne (s.getV x) nn)

theorem exec_seReg (x y : Reg) (s : State) :
    exec (.seReg x y) s = .next (if s.getV x = s.getV y then { s with pc := s.pc + 2 } else s) :=
  congrArg Host.Outcome.next (s.skipIf_beq (s.getV x) (s.getV y))

theorem exec_sneReg (x y : Reg) (s : State) :
    exec (.sneReg x y) s = .next (if s.getV x = s.getV y then s else { s with pc := s.pc + 2 }) :=
  congrArg Host.Outcome.next (s.skipIf_bne (s.getV x) (s.getV y))

/-- Settles O16: the words by their fields, the skips by `State.skipIf_beq` and its complement. -/
theorem skipOnImmediate : Obligations.SkipOnImmediate := fun x nn s =>
  ⟨decodeWord_seImm x nn, decodeWord_sneImm x nn, exec_seImm x nn s, exec_sneImm x nn s⟩

/-- Settles O17: as O16 on two registers; a register always equals itself, which decides the two forms with `x = y`. -/
theorem skipOnRegisters : Obligations.SkipOnRegisters := fun x y s =>
  ⟨decodeWord_seReg x y, decodeWord_sneReg x y, exec_seReg x y s, exec_sneReg x y s,
    (exec_seReg x x s).trans (by rw [if_pos rfl]), (exec_sneReg x x s).trans (by rw [if_pos rfl])⟩

end Sys2Proof.Machine

/-! PROOFS. Load, add and copy (spec/42_alu.md R110 to R112): the words of 6xnn, 7xnn and 8xy0 as numbers, the frame of a write
to one register, and what the three instructions do. -/

namespace Sys2Proof.Machine

/-! ### The words of 6xnn, 7xnn and 8xy0 -/

theorem decodeWord_ldImm (x : Reg) (nn : Byte) :
    decodeWord (BitVec.ofNat 16 (0x6000 + x.val * 256 + nn.toNat)) = some (.ldImm x nn) := by
  have hw : wordXI 0x6 x nn = BitVec.ofNat 16 (0x6000 + x.val * 256 + nn.toNat) := wordXI_eq_ofNat 0x6 x nn
  simp [← hw, decodeWord]

theorem decodeWord_addImm (x : Reg) (nn : Byte) :
    decodeWord (BitVec.ofNat 16 (0x7000 + x.val * 256 + nn.toNat)) = some (.addImm x nn) := by
  have hw : wordXI 0x7 x nn = BitVec.ofNat 16 (0x7000 + x.val * 256 + nn.toNat) := wordXI_eq_ofNat 0x7 x nn
  simp [← hw, decodeWord]

theorem decodeWord_ldReg (x y : Reg) :
    decodeWord (BitVec.ofNat 16 (0x8000 + x.val * 256 + y.val * 16)) = some (.ldReg x y) := by
  have hw : wordXY 0x8 x y 0x0 = BitVec.ofNat 16 (0x8000 + x.val * 256 + y.val * 16) := wordXY_eq_ofNat 0x8 x y 0x0
  simp [← hw, decodeWord, decode8]

/-! ### A write to one register -/

/-- A write to one register keeps the other fifteen and every element but the registers. -/
theorem State.setV_frame (s : State) (x : Reg) (b : Byte) :
    (∀ r, r ≠ x → (s.setV x b).getV r = s.getV r) ∧ s.setV x b = { s with v := (s.setV x b).v } :=
  ⟨fun r hr => (s.getV_setV x r b).trans (if_neg hr), rfl⟩

/-! ### The three instructions -/

theorem exec_ldImm (x : Reg) (nn : Byte) (s : State) : exec (.ldImm x nn) s = .next (s.setV x nn) := rfl

theorem exec_addImm (x : Reg) (nn : Byte) (s : State) : exec (.addImm x nn) s = .next (s.setV x (s.getV x + nn)) := rfl

theorem exec_ldReg (x y : Reg) (s : State) : exec (.ldReg x y) s = .next (s.setV x (s.getV y)) := rfl

/-- Settles O19: one register is written, with `nn` itself. -/
theorem loadImmediateSetsOneRegister : Obligations.LoadImmediateSetsOneRegister := fun x nn s =>
  ⟨decodeWord_ldImm x nn, _, exec_ldImm x nn s, s.getV_setV_same x nn, s.setV_frame x nn⟩

/-- Settles O20: one register is written, with the sum of two bytes, which is the sum modulo 256; no flag is written, so for
`x` other than 15 VF is among the registers kept. -/
theorem addImmediateWrapsWithoutFlag : Obligations.AddImmediateWrapsWithoutFlag := by
  intro x nn s
  have hsum : ((s.setV x (s.getV x + nn)).getV x).toNat = ((s.getV x).toNat + nn.toNat) % 256 := by
    rw [State.getV_setV_same, BitVec.toNat_add]
  exact ⟨decodeWord_addImm x nn, _, exec_addImm x nn s, hsum, s.setV_frame x _⟩

/-- Settles O21: one register is written, with `V[y]` as it was before the write. -/
theorem copyRegister : Obligations.CopyRegister := fun x y s =>
  ⟨decodeWord_ldReg x y, _, exec_ldReg x y s, s.getV_setV_same x _, s.setV_frame x _⟩

end Sys2Proof.Machine

/-! PROOFS. The index register (spec/43_index_memory.md R130, R132): the words of Annn and Fx29 as numbers, and what the two
instructions leave in `I`. -/

namespace Sys2Proof.Machine

/-! ### The words of Annn and Fx29 -/

theorem decodeWord_ldI (nnn : Imm12) : decodeWord (BitVec.ofNat 16 (0xA000 + nnn.toNat)) = some (.ldI nnn) := by
  have hw : wordA 0xA nnn = BitVec.ofNat 16 (0xA000 + nnn.toNat) := wordA_eq_ofNat 0xA nnn
  simp [← hw, decodeWord]

/-- `wordXI_eq_ofNat` for an instruction whose low byte selects its function: opcode and function form one constant. -/
theorem wordXI_eq_ofNat_function (op : Nibble) (x : Reg) (n : Byte) :
    wordXI op x n = BitVec.ofNat 16 (op.toNat * 4096 + n.toNat + x.val * 256) :=
  (wordXI_eq_ofNat op x n).trans (by rw [Nat.add_right_comm])

theorem decodeWord_ldF (x : Reg) : decodeWord (BitVec.ofNat 16 (0xF029 + x.val * 256)) = some (.ldF x) := by
  have hw : wordXI 0xF x 0x29 = BitVec.ofNat 16 (0xF029 + x.val * 256) := wordXI_eq_ofNat_function 0xF x 0x29
  simp [← hw, decodeWord, decodeF]

/-! ### The two instructions -/

/-- Zero-extending `nnn` gives the word of that number. -/
theorem absolute_eq_ofNat (nnn : Imm12) : absolute nnn = BitVec.ofNat 16 nnn.toNat := (BitVec.ofNat_toNat 16 nnn).symm

theorem exec_ldI (nnn : Imm12) (s : State) : exec (.ldI nnn) s = .next (s.setI (absolute nnn)) := rfl

theorem exec_ldF (x : Reg) (s : State) : exec (.ldF x) s = .next (s.setI (glyphAddress (s.getV x))) := rfl

/-- Settles O27: `I` is written with `nnn` zero-extended, and no other element is. -/
theorem loadIndexSetsI : Obligations.LoadIndexSetsI := fun nnn s =>
  ⟨decodeWord_ldI nnn, by rw [exec_ldI, absolute_eq_ofNat]; rfl⟩

/-- Settles O29: five times a byte is below 65536, so `toNat_glyphAddress` gives the product of the whole byte unreduced. -/
theorem glyphAddressIsFiveTimes : Obligations.GlyphAddressIsFiveTimes := fun x s =>
  ⟨decodeWord_ldF x, _, exec_ldF x s, toNat_glyphAddress (s.getV x), rfl⟩

end Sys2Proof.Machine

/-! PROOFS. The display (spec/44_display.md R140): the word of 00E0, and what it leaves in the display. -/

namespace Sys2Proof.Machine

theorem decodeWord_cls : decodeWord 0x00E0 = some .cls := rfl

theorem exec_cls (s : State) : exec .cls s = .next (s.setDisp Display.clear) := rfl

/-- Settles O36: the display is written with the clear one, whose pixels are all false, and no other element is. -/
theorem clearDisplay : Obligations.ClearDisplay :=
  ⟨decodeWord_cls, fun s => ⟨_, exec_cls s, Display.pixel_clear, rfl⟩⟩

end Sys2Proof.Machine

/-! PROOFS. The timers and the key wait (spec/45_timers_keys.md R150 to R154): the decay timer by timer, the words of Fx07, Fx0A,
Fx15 and Fx18 as numbers, and what the four instructions do. -/

namespace Sys2Proof.Machine

/-! ### The decay, timer by timer -/

/-- `toNat_countDown` with the test that R154 writes: only a timer above 0 is decremented. -/
theorem toNat_countDown_eq_ite (b : Byte) : (countDown b).toNat = if 0 < b.toNat then b.toNat - 1 else 0 := by
  rw [toNat_countDown]
  split <;> omega

/-- After the decay `beep` is set when it was before or the sound timer was exactly 1. -/
theorem State.decay_beep_iff (s : State) : s.decay.beep = true ↔ s.beep = true ∨ s.st.toNat = 1 := by
  rw [State.decay_beep, Bool.or_eq_true, beq_iff_eq, BitVec.toNat_eq]
  rfl

/-- Settles O9: by `step_cases` the step is the decay of what the instruction left, and the decay writes the two timers and
`beep` alone. -/
theorem everyOkStepDecaysTimers : Obligations.EveryOkStepDecaysTimers := by
  intro s t h
  obtain ⟨w, i, u, hw, hi, hu, rfl⟩ := step_cases h
  exact ⟨w, i, u, hw, hi, hu, toNat_countDown_eq_ite u.dt, toNat_countDown_eq_ite u.st, u.decay_beep_iff, rfl⟩

/-! ### The words of Fx07, Fx0A, Fx15 and Fx18 -/

/-- First nibble F: the low byte of the word selects the instruction. -/
theorem decodeWord_functionF (x : Reg) (n : Byte) :
    decodeWord (BitVec.ofNat 16 (0xF000 + n.toNat + x.val * 256)) = decodeF (wordXI 0xF x n) := by
  have hw : wordXI 0xF x n = BitVec.ofNat 16 (0xF000 + n.toNat + x.val * 256) := wordXI_eq_ofNat_function 0xF x n
  simp [← hw, decodeWord]

theorem decodeWord_ldVxDt (x : Reg) : decodeWord (BitVec.ofNat 16 (0xF007 + x.val * 256)) = some (.ldVxDt x) :=
  (decodeWord_functionF x 0x07).trans (by simp [decodeF])

theorem decodeWord_ldVxK (x : Reg) : decodeWord (BitVec.ofNat 16 (0xF00A + x.val * 256)) = some (.ldVxK x) :=
  (decodeWord_functionF x 0x0A).trans (by simp [decodeF])

theorem decodeWord_ldDtVx (x : Reg) : decodeWord (BitVec.ofNat 16 (0xF015 + x.val * 256)) = some (.ldDtVx x) :=
  (decodeWord_functionF x 0x15).trans (by simp [decodeF])

theorem decodeWord_ldStVx (x : Reg) : decodeWord (BitVec.ofNat 16 (0xF018 + x.val * 256)) = some (.ldStVx x) :=
  (decodeWord_functionF x 0x18).trans (by simp [decodeF])

/-! ### The four instructions -/

theorem exec_ldVxDt (x : Reg) (s : State) : exec (.ldVxDt x) s = .next (s.setV x s.dt) := rfl

theorem exec_ldDtVx (x : Reg) (s : State) : exec (.ldDtVx x) s = .next (s.setDt (s.getV x)) := rfl

theorem exec_ldStVx (x : Reg) (s : State) : exec (.ldStVx x) s = .next (s.setSt (s.getV x)) := rfl

theorem exec_ldVxK_of_none {s : State} (x : Reg) (h : s.lowestKey = none) :
    exec (.ldVxK x) s = .next (s.setPc s.pc0) := by
  change execLdVxK x s = _
  rw [execLdVxK, h]

theorem exec_ldVxK_of_some {s : State} {k : KeyNo} (x : Reg) (h : s.lowestKey = some k) :
    exec (.ldVxK x) s = .next (s.setV x (BitVec.ofNat 8 k.val)) := by
  change execLdVxK x s = _
  rw [execLdVxK, h]

/-- Settles O39: the instruction writes one register and no timer, so its step decays the very value it read. -/
theorem readDelayTimer : Obligations.ReadDelayTimer := by
  intro x s
  refine ⟨decodeWord_ldVxDt x, ⟨_, exec_ldVxDt x s, s.getV_setV_same x s.dt, s.setV_frame x s.dt⟩, fun hf => ?_⟩
  have hstep : step s = .next (s.advance.setV x s.dt).decay := step_of_decodeWord hf (decodeWord_ldVxDt x)
  exact ⟨_, hstep, s.advance.getV_setV_same x s.dt, toNat_countDown s.dt⟩

/-- Settles O40: the two cases are those of `State.lowestKey`, which finds no key or the lowest pressed one. -/
theorem waitForKey : Obligations.WaitForKey := by
  intro x s
  refine ⟨decodeWord_ldVxK x, fun hnone => exec_ldVxK_of_none x (State.lowestKey_eq_none_iff.2 hnone), fun k hk hlow => ?_⟩
  have hexec := exec_ldVxK_of_some x (State.lowestKey_eq_some_iff.2 ⟨hk, hlow⟩)
  have hval : ((s.setV x (BitVec.ofNat 8 k.val)).getV x).toNat = k.val := by
    rw [State.getV_setV_same, BitVec.toNat_ofNat, Nat.mod_eq_of_lt (by omega)]
  exact ⟨_, hexec, hval, s.setV_frame x _⟩

/-- Settles O41: each instruction writes its timer and no other element. -/
theorem loadTimers : Obligations.LoadTimers := fun x s =>
  ⟨decodeWord_ldDtVx x, decodeWord_ldStVx x, exec_ldDtVx x s, exec_ldStVx x s⟩

end Sys2Proof.Machine

/-! PROOFS. The unknown opcode and the host's view of the display (spec/60_exceptions.md R161, R178): a word that decodes is the
encoding of its instruction, so a word outside the opcode map decodes to nothing; and the view is the display's rows joined. -/

namespace Sys2Proof.Machine

variable {w : Word} {i : Instr}

/-! ### A word is built from its fields -/

theorem wordA_fields (w : Word) : wordA (nibble1 w) (fieldNNN w) = w := by
  apply BitVec.eq_of_getLsbD_eq
  intro k hk
  simp only [wordA, nibble1, fieldNNN, BitVec.getLsbD_append, BitVec.getLsbD_extractLsb]
  interval_cases k <;> simp

theorem wordXI_fields (w : Word) : wordXI (nibble1 w) (fieldX w) (fieldNN w) = w := by
  apply BitVec.eq_of_getLsbD_eq
  intro k hk
  simp only [wordXI, regBits, fieldX, nibble1, nibble2, fieldNN, BitVec.ofFin_toFin, BitVec.getLsbD_append,
    BitVec.getLsbD_extractLsb]
  interval_cases k <;> simp

theorem wordXY_fields (w : Word) : wordXY (nibble1 w) (fieldX w) (fieldY w) (nibble4 w) = w := by
  apply BitVec.eq_of_getLsbD_eq
  intro k hk
  simp only [wordXY, regBits, fieldX, fieldY, nibble1, nibble2, nibble3, nibble4, BitVec.ofFin_toFin,
    BitVec.getLsbD_append, BitVec.getLsbD_extractLsb]
  interval_cases k <;> simp

theorem wordA_eq_of_fields {op : Nibble} (hop : nibble1 w = op) : wordA op (fieldNNN w) = w := hop ▸ wordA_fields w

theorem wordXI_eq_of_fields {op : Nibble} {n : Byte} (hop : nibble1 w = op) (hn : fieldNN w = n) :
    wordXI op (fieldX w) n = w :=
  hop ▸ hn ▸ wordXI_fields w

theorem wordXY_eq_of_fields {op l : Nibble} (hop : nibble1 w = op) (hl : nibble4 w = l) :
    wordXY op (fieldX w) (fieldY w) l = w :=
  hop ▸ hl ▸ wordXY_fields w

/-! ### A word that decodes is the encoding of its instruction, one lemma per part of the decoder -/

theorem encode_of_decode0 (h : decode0 w = some i) : encode i = w := by
  unfold decode0 at h
  split at h <;> cases h <;> rfl

theorem encode_of_decode8 (hop : nibble1 w = 0x8) (h : decode8 w = some i) : encode i = w := by
  unfold decode8 at h
  split at h <;> cases h <;> exact wordXY_eq_of_fields hop ‹_›

theorem encode_of_decodeE (hop : nibble1 w = 0xE) (h : decodeE w = some i) : encode i = w := by
  unfold decodeE at h
  split at h <;> cases h <;> exact wordXI_eq_of_fields hop ‹_›

theorem encode_of_decodeF (hop : nibble1 w = 0xF) (h : decodeF w = some i) : encode i = w := by
  unfold decodeF at h
  split at h <;> cases h <;> exact wordXI_eq_of_fields hop ‹_›

/-- The cases are those of `decodeWord`, by the first nibble, those of one format together. -/
theorem encode_of_decodeWord (h : decodeWord w = some i) : encode i = w := by
  unfold decodeWord at h
  split at h
  case h_1 => exact encode_of_decode0 h
  case h_2 hop | h_3 hop | h_11 hop | h_12 hop =>
    cases h
    exact wordA_eq_of_fields hop
  case h_4 hop | h_5 hop | h_7 hop | h_8 hop | h_13 hop =>
    cases h
    exact wordXI_eq_of_fields hop rfl
  case h_6 hop | h_10 hop =>
    split at h
    · next hl =>
      cases h
      exact wordXY_eq_of_fields hop hl
    · cases h
  case h_14 hop =>
    cases h
    exact wordXY_eq_of_fields hop rfl
  case h_9 hop => exact encode_of_decode8 hop h
  case h_15 hop => exact encode_of_decodeE hop h
  case h_16 hop => exact encode_of_decodeF hop h
  case h_17 => cases h

/-! ### The encodings fit the opcode map -/

/-- Each instruction's word matches the row of its mnemonic. -/
theorem encodingFits (i : Instr) : Laws.EncodingFits.Statement i := by
  cases i with
  | nop => exact Laws.EncodingFits.nop
  | cls => exact Laws.EncodingFits.cls
  | ret => exact Laws.EncodingFits.ret
  | jp nnn => exact Laws.EncodingFits.jp nnn
  | call nnn => exact Laws.EncodingFits.call nnn
  | seImm x nn => exact Laws.EncodingFits.seImm x nn
  | sneImm x nn => exact Laws.EncodingFits.sneImm x nn
  | seReg x y => exact Laws.EncodingFits.seReg x y
  | ldImm x nn => exact Laws.EncodingFits.ldImm x nn
  | addImm x nn => exact Laws.EncodingFits.addImm x nn
  | ldReg x y => exact Laws.EncodingFits.ldReg x y
  | orReg x y => exact Laws.EncodingFits.orReg x y
  | andReg x y => exact Laws.EncodingFits.andReg x y
  | xorReg x y => exact Laws.EncodingFits.xorReg x y
  | addReg x y => exact Laws.EncodingFits.addReg x y
  | sub x y => exact Laws.EncodingFits.sub x y
  | shr x y => exact Laws.EncodingFits.shr x y
  | subn x y => exact Laws.EncodingFits.subn x y
  | shl x y => exact Laws.EncodingFits.shl x y
  | sneReg x y => exact Laws.EncodingFits.sneReg x y
  | ldI nnn => exact Laws.EncodingFits.ldI nnn
  | jpV0 nnn => exact Laws.EncodingFits.jpV0 nnn
  | rnd x nn => exact Laws.EncodingFits.rnd x nn
  | drw x y n => exact Laws.EncodingFits.drw x y n
  | skp x => exact Laws.EncodingFits.skp x
  | sknp x => exact Laws.EncodingFits.sknp x
  | ldVxDt x => exact Laws.EncodingFits.ldVxDt x
  | ldVxK x => exact Laws.EncodingFits.ldVxK x
  | ldDtVx x => exact Laws.EncodingFits.ldDtVx x
  | ldStVx x => exact Laws.EncodingFits.ldStVx x
  | addI x => exact Laws.EncodingFits.addI x
  | ldF x => exact Laws.EncodingFits.ldF x
  | ldB x => exact Laws.EncodingFits.ldB x
  | stRegs x => exact Laws.EncodingFits.stRegs x
  | ldRegs x => exact Laws.EncodingFits.ldRegs x

theorem wellFormedWord_encode (i : Instr) : wellFormedWord (encode i) = true := by
  obtain ⟨r, hr, -, hhit⟩ := encodingFits i
  exact List.any_eq_true.2 ⟨r, hr, hhit⟩

/-! ### The unknown opcode -/

/-- The decoder accepts no word outside the opcode map (30_encoding R76). -/
theorem decodeWord_eq_none_of_unmatched (h : wellFormedWord w = false) : decodeWord w = none := by
  refine Option.eq_none_iff_forall_ne_some.2 fun i hi => ?_
  have hwf : wellFormedWord w = true := encode_of_decodeWord hi ▸ wellFormedWord_encode i
  exact Bool.false_ne_true (h.symm.trans hwf)

theorem step_of_decodeWord_none {s : State} (hf : fetch s = some w) (hd : decodeWord w = none) :
    step s = .fault (.unknownOpcode w) := by
  simp only [step, stepWith, hf, hd, raise]

/-- Settles O7: a word that decodes would be an encoding and so match a row, so the unmatched word does not decode. -/
theorem unmatchedWordFaults : Obligations.UnmatchedWordFaults := fun _ _ hf hw =>
  step_of_decodeWord_none hf (decodeWord_eq_none_of_unmatched hw)

/-! ### The view of the display -/

/-- The view is the display's rows joined, as a vector of 32 times 64 pixels. -/
theorem displayView_eq_flatten (d : Display) : displayView d = d.flatten.toList := by
  calc displayView d = ((d.toArray.map Vector.toArray).toList.map Array.toList).flatten := by
        rw [displayView, List.flatMap_def, Array.toList_map, List.map_map]
        rfl
    _ = (d.toArray.map Vector.toArray).flatten.toList := Array.toList_flatten.symm

@[simp] theorem length_displayView (d : Display) : (displayView d).length = 2048 := by
  rw [displayView_eq_flatten, Vector.length_toList]

/-- Division by the row length gives the row of an index, the remainder its column. -/
theorem getElem?_displayView (d : Display) (col : Fin 64) (row : Fin 32) :
    (displayView d)[col.val + 64 * row.val]? = some (d.pixel col row) := by
  have hlt : col.val + 64 * row.val < 32 * 64 := by omega
  have hrow : (col.val + 64 * row.val) / 64 = row.val := by omega
  have hcol : (col.val + 64 * row.val) % 64 = col.val := by omega
  rw [displayView_eq_flatten, Vector.getElem?_toList, Vector.getElem?_flatten, dif_pos hlt]
  simp only [hrow, hcol, Display.pixel, Fin.getElem_fin]

/-- Settles O57: `read_display` answers `displayView` of the state it leaves alone. -/
theorem readDisplayIsRowMajor : Obligations.ReadDisplayIsRowMajor := fun s =>
  ⟨displayView s.disp, rfl, length_displayView s.disp, getElem?_displayView s.disp⟩

end Sys2Proof.Machine

/-! PROOFS. The decoder as a whole (spec/30_encoding.md R70 to R77): every instruction decodes from its encoding, and the words
that decode to nothing, one lemma per part of the decoder. -/

namespace Sys2Proof.Machine

variable {w : Word}

/-! ### An encoding decodes to its instruction -/

/-- The cases are those of `encode`, the instructions of one part of the decoder together: the fields of the built word are
the operands it was built from. -/
theorem decodeWord_encode (i : Instr) : decodeWord (encode i) = some i := by
  cases i with
  | nop | cls | ret => rfl
  | jp | call | ldI | jpV0 | seImm | sneImm | ldImm | addImm | rnd | seReg | sneReg | drw => simp [encode, decodeWord]
  | ldReg | orReg | andReg | xorReg | addReg | sub | shr | subn | shl => simp [encode, decodeWord, decode8]
  | skp | sknp => simp [encode, decodeWord, decodeE]
  | ldVxDt | ldVxK | ldDtVx | ldStVx | addI | ldF | ldB | stRegs | ldRegs => simp [encode, decodeWord, decodeF]

/-- Settles O1: the word by `decodeWord_encode`, the bytes by `decode_bytesOfWord`, which decodes them as the word. -/
theorem decodeEncodeRoundTrip : Obligations.DecodeEncodeRoundTrip := fun i rest =>
  ⟨decodeWord_encode i, by rw [decode_bytesOfWord, decodeWord_encode]⟩

/-- Settles O2: `encode_of_decodeWord`, case by case of the decoder. -/
theorem encodeDecodeInverse : Obligations.EncodeDecodeInverse := fun _ _ h => encode_of_decodeWord h

/-! ### The words that decode to nothing -/

theorem decode0_eq_none_iff : decode0 w = none ↔ w ≠ 0x0000 ∧ w ≠ 0x00E0 ∧ w ≠ 0x00EE := by
  unfold decode0
  split
  case h_4 h0 hE0 hEE => exact iff_of_true rfl ⟨h0, hE0, hEE⟩
  all_goals simp

theorem decodeE_eq_none_iff : decodeE w = none ↔ fieldNN w ≠ 0x9E ∧ fieldNN w ≠ 0xA1 := by
  unfold decodeE
  split
  case h_3 h9E hA1 => exact iff_of_true rfl ⟨h9E, hA1⟩
  all_goals next h => simp [h]

theorem decodeF_eq_none_iff : decodeF w = none ↔ fieldNN w ≠ 0x07 ∧ fieldNN w ≠ 0x0A ∧ fieldNN w ≠ 0x15 ∧ fieldNN w ≠ 0x18 ∧
    fieldNN w ≠ 0x1E ∧ fieldNN w ≠ 0x29 ∧ fieldNN w ≠ 0x33 ∧ fieldNN w ≠ 0x55 ∧ fieldNN w ≠ 0x65 := by
  unfold decodeF
  split
  case h_10 h07 h0A h15 h18 h1E h29 h33 h55 h65 => exact iff_of_true rfl ⟨h07, h0A, h15, h18, h1E, h29, h33, h55, h65⟩
  all_goals next h => simp [h]

/-- The seven last nibbles of the group 8xyk are those that `decode8` does not name. -/
theorem decode8_eq_none_iff : decode8 w = none ↔ nibble4 w = 0x8 ∨ nibble4 w = 0x9 ∨ nibble4 w = 0xA ∨ nibble4 w = 0xB ∨
    nibble4 w = 0xC ∨ nibble4 w = 0xD ∨ nibble4 w = 0xF := by
  have hfunction : ∀ n : Nibble, n ≠ 0x0 → n ≠ 0x1 → n ≠ 0x2 → n ≠ 0x3 → n ≠ 0x4 → n ≠ 0x5 → n ≠ 0x6 → n ≠ 0x7 →
      n ≠ 0xE → n = 0x8 ∨ n = 0x9 ∨ n = 0xA ∨ n = 0xB ∨ n = 0xC ∨ n = 0xD ∨ n = 0xF := by bv_omega
  unfold decode8
  split
  case h_10 h0 h1 h2 h3 h4 h5 h6 h7 hE => exact iff_of_true rfl (hfunction _ h0 h1 h2 h3 h4 h5 h6 h7 hE)
  all_goals next h => simp [h]

/-- Settles O3: the cases are those of `decodeWord`, by the first nibble, which selects one of the six groups or none of them;
in a group the lemma of its part of the decoder says which words are left. -/
theorem unknownWordsAreTheSixGroups : Obligations.UnknownWordsAreTheSixGroups := by
  intro w
  unfold decodeWord
  split
  case h_1 hop => simp [hop, decode0_eq_none_iff]
  case h_6 hop | h_10 hop => simp [hop]
  case h_9 hop => simp [hop, decode8_eq_none_iff]
  case h_15 hop => simp [hop, decodeE_eq_none_iff]
  case h_16 hop => simp [hop, decodeF_eq_none_iff]
  case h_17 h0 h1 h2 h3 h4 h5 h6 h7 h8 h9 hA hB hC hD hE hF =>
    have hnibble : ∀ n : Nibble, n ≠ 0x0 → n ≠ 0x1 → n ≠ 0x2 → n ≠ 0x3 → n ≠ 0x4 → n ≠ 0x5 → n ≠ 0x6 → n ≠ 0x7 → n ≠ 0x8 →
        n ≠ 0x9 → n ≠ 0xA → n ≠ 0xB → n ≠ 0xC → n ≠ 0xD → n ≠ 0xE → n ≠ 0xF → False := by bv_omega
    exact (hnibble _ h0 h1 h2 h3 h4 h5 h6 h7 h8 h9 hA hB hC hD hE hF).elim
  all_goals next hop => simp [hop]

end Sys2Proof.Machine

/-! PROOFS. The fetch (spec/20_memory.md R52 to R54): the fields of a big-endian word are those of its two bytes. -/

namespace Sys2Proof.Machine

/-! ### A word and its two bytes -/

theorem toNat_wordOfBytes (hi lo : Byte) : (wordOfBytes hi lo).toNat = hi.toNat * 256 + lo.toNat := by
  have := hi.isLt
  have := lo.isLt
  simp only [wordOfBytes, BitVec.toNat_ofNat]
  omega

theorem extractLsb_high_wordOfBytes (hi lo : Byte) : (wordOfBytes hi lo).extractLsb 15 8 = hi := by
  apply BitVec.eq_of_toNat_eq
  have := hi.isLt
  have := lo.isLt
  simp only [BitVec.extractLsb_toNat, toNat_wordOfBytes, Nat.shiftRight_eq_div_pow]
  omega

theorem fieldNN_wordOfBytes (hi lo : Byte) : fieldNN (wordOfBytes hi lo) = lo := by
  apply BitVec.eq_of_toNat_eq
  have := lo.isLt
  simp only [fieldNN, BitVec.extractLsb_toNat, toNat_wordOfBytes, Nat.shiftRight_eq_div_pow]
  omega

theorem nibble1_append_nibble2 (w : Word) : (nibble1 w ++ nibble2 w : BitVec (4 + 4)) = w.extractLsb 15 8 := by
  apply BitVec.eq_of_getLsbD_eq
  intro k hk
  simp only [nibble1, nibble2, BitVec.getLsbD_append, BitVec.getLsbD_extractLsb]
  interval_cases k <;> simp

theorem nibble3_append_nibble4 (w : Word) : (nibble3 w ++ nibble4 w : BitVec (4 + 4)) = fieldNN w := by
  apply BitVec.eq_of_getLsbD_eq
  intro k hk
  simp only [nibble3, nibble4, fieldNN, BitVec.getLsbD_append, BitVec.getLsbD_extractLsb]
  interval_cases k <;> simp

/-- Settles O5: `fetch_of_le` at any parity of `pc`; the byte at `pc` is the high byte of the word and the next one the low. -/
theorem fetchIsBigEndian : Obligations.FetchIsBigEndian := fun _ h =>
  ⟨_, fetch_of_le h, toNat_wordOfBytes _ _, ((nibble1_append_nibble2 _).trans (extractLsb_high_wordOfBytes _ _)).symm,
    ((nibble3_append_nibble4 _).trans (fieldNN_wordOfBytes _ _)).symm, (fieldNN_wordOfBytes _ _).symm⟩

end Sys2Proof.Machine

/-! PROOFS. Call and return (spec/40_step_and_control_flow.md R92, R94): the words of 2nnn and 00EE, what the two instructions do
with and without an entry to write or to read, and what each did if it answered a next state. -/

namespace Sys2Proof.Machine

variable {s t : State}

theorem decodeWord_call (nnn : Imm12) : decodeWord (BitVec.ofNat 16 (0x2000 + nnn.toNat)) = some (.call nnn) := by
  have hw : wordA 0x2 nnn = BitVec.ofNat 16 (0x2000 + nnn.toNat) := wordA_eq_ofNat 0x2 nnn
  simp [← hw, decodeWord]

theorem decodeWord_ret : decodeWord 0x00EE = some .ret := rfl

/-! ### The two instructions -/

theorem exec_call_of_lt (nnn : Imm12) (h : s.sp.val < 16) : exec (.call nnn) s =
    .next ((s.setStack (s.stack.set s.sp.val s.pc h) ⟨s.sp.val + 1, Nat.succ_lt_succ h⟩).setPc (absolute nnn)) := by
  change execCall nnn s = _
  rw [execCall, State.push_of_lt s.pc h]

theorem exec_call_of_full (nnn : Imm12) (h : s.sp.val = 16) : exec (.call nnn) s = .fault (.stackOverflow s.pc0) := by
  change execCall nnn s = _
  rw [execCall, State.push_of_full s.pc h, raise]

theorem exec_ret_of_succ {n : Nat} (h : s.sp.val = n + 1) (hn : n < 16) : exec .ret s =
    .next ((s.setStack s.stack ⟨n, Nat.lt_succ_of_lt hn⟩).setPc s.stack[n]) := by
  change execRet s = _
  rw [execRet, State.pop_of_succ h hn]

theorem exec_ret_of_empty (h : s.sp.val = 0) : exec .ret s = .fault (.stackUnderflow s.pc0) := by
  change execRet s = _
  rw [execRet, State.pop_of_empty h, raise]

/-- A call that does not fault has room for the entry it writes. -/
theorem exec_call_cases {nnn : Imm12} (h : exec (.call nnn) s = .next t) : ∃ hlt : s.sp.val < 16,
    t = (s.setStack (s.stack.set s.sp.val s.pc hlt) ⟨s.sp.val + 1, Nat.succ_lt_succ hlt⟩).setPc (absolute nnn) := by
  by_cases hlt : s.sp.val < 16
  · exact ⟨hlt, Host.Outcome.next.inj (h.symm.trans (exec_call_of_lt nnn hlt))⟩
  · cases h.symm.trans (exec_call_of_full nnn (by omega))

/-- A return that does not fault has an entry to read. -/
theorem exec_ret_cases (h : exec .ret s = .next t) : ∃ (n : Nat) (hn : n < 16),
    s.sp.val = n + 1 ∧ t = (s.setStack s.stack ⟨n, Nat.lt_succ_of_lt hn⟩).setPc s.stack[n] := by
  cases hsp : s.sp.val with
  | zero => cases h.symm.trans (exec_ret_of_empty hsp)
  | succ n =>
    have hn : n < 16 := by omega
    exact ⟨n, hn, rfl, Host.Outcome.next.inj (h.symm.trans (exec_ret_of_succ hsp hn))⟩

/-- Settles O13: with room by `exec_call_of_lt`, where the target is the word of the number `nnn`; on a full stack by
`exec_call_of_full`. -/
theorem callPushesReturnAddress : Obligations.CallPushesReturnAddress := fun nnn s =>
  ⟨decodeWord_call nnn, fun h => by rw [exec_call_of_lt nnn h, absolute_eq_ofNat]; rfl, exec_call_of_full nnn⟩

/-- Settles O14: with an entry in use by `exec_ret_of_succ`, with none by `exec_ret_of_empty`. -/
theorem returnPopsIntoPc : Obligations.ReturnPopsIntoPc :=
  ⟨decodeWord_ret, fun _ => ⟨fun _ hn h => exec_ret_of_succ h hn, exec_ret_of_empty⟩⟩

/-- Settles O15: the entry in use that the return reads is the one the call wrote, so it holds the call's `pc`. -/
theorem returnUndoesCall : Obligations.ReturnUndoesCall := by
  intro nnn s t u h hstack hsp
  obtain ⟨hlt, rfl⟩ := exec_call_cases h
  have hnewest : u.stack[s.sp.val] = s.pc := by simp [hstack]
  have hcount : u.sp.val = s.sp.val + 1 := congrArg Fin.val hsp
  rw [exec_ret_of_succ hcount hlt, hnewest]
  rfl

end Sys2Proof.Machine

/-! PROOFS. The skips on keys (spec/41_skips.md R104, R105): the words of Ex9E and ExA1 as numbers, and what the two instructions
do for a key that exists and for none. -/

namespace Sys2Proof.Machine

variable {s t : State} {x : Reg}

/-- First nibble E: the low byte of the word selects the instruction. -/
theorem decodeWord_functionE (x : Reg) (n : Byte) :
    decodeWord (BitVec.ofNat 16 (0xE000 + n.toNat + x.val * 256)) = decodeE (wordXI 0xE x n) := by
  have hw : wordXI 0xE x n = BitVec.ofNat 16 (0xE000 + n.toNat + x.val * 256) := wordXI_eq_ofNat_function 0xE x n
  simp [← hw, decodeWord]

theorem decodeWord_skp (x : Reg) : decodeWord (BitVec.ofNat 16 (0xE09E + x.val * 256)) = some (.skp x) :=
  (decodeWord_functionE x 0x9E).trans (by simp [decodeE])

theorem decodeWord_sknp (x : Reg) : decodeWord (BitVec.ofNat 16 (0xE0A1 + x.val * 256)) = some (.sknp x) :=
  (decodeWord_functionE x 0xA1).trans (by simp [decodeE])

theorem skipOnKey_of_lt (want : Bool) (h : (s.getV x).toNat < 16) :
    skipOnKey x want s = .next (s.skipIf (s.key[(s.getV x).toNat] == want)) := by
  rw [skipOnKey, keyNumber_of_le (Nat.le_of_lt_succ h)]
  rfl

theorem skipOnKey_of_gt (want : Bool) (h : 15 < (s.getV x).toNat) :
    skipOnKey x want s = .fault (.keyOperandOutOfRange (s.getV x)) := by
  rw [skipOnKey, keyNumber_of_gt h, raise]

/-- Settles O18: both instructions are `skipOnKey`, for the two states of a key; above 15 it answers the fault. -/
theorem skipOnKeyState : Obligations.SkipOnKeyState := by
  intro x s
  refine ⟨decodeWord_skp x, decodeWord_sknp x, fun h => ⟨?_, ?_⟩, fun h => ⟨skipOnKey_of_gt true h, skipOnKey_of_gt false h⟩⟩
  · refine (skipOnKey_of_lt true h).trans ?_
    cases s.key[(s.getV x).toNat] <;> rfl
  · refine (skipOnKey_of_lt false h).trans ?_
    cases s.key[(s.getV x).toNat] <;> rfl

end Sys2Proof.Machine

/-! PROOFS. Logic, arithmetic with flags, shifts and the random draw (spec/42_alu.md R113 to R121): the words of the group 8xyk
and of Cxnn as numbers, what a result written with a flag leaves, and what the nine instructions do. -/

namespace Sys2Proof.Machine

/-! ### The words -/

/-- First nibble 8: the last nibble of the word selects the instruction. -/
theorem decodeWord_function8 (x y : Reg) (l : Nibble) :
    decodeWord (BitVec.ofNat 16 (0x8000 + l.toNat + x.val * 256 + y.val * 16)) = decode8 (wordXY 0x8 x y l) := by
  have hsum : 0x8000 + l.toNat + x.val * 256 + y.val * 16 = 0x8000 + x.val * 256 + y.val * 16 + l.toNat := by omega
  have hw : wordXY 0x8 x y l = BitVec.ofNat 16 (0x8000 + l.toNat + x.val * 256 + y.val * 16) :=
    hsum ▸ wordXY_eq_ofNat 0x8 x y l
  simp [← hw, decodeWord]

theorem decodeWord_orReg (x y : Reg) :
    decodeWord (BitVec.ofNat 16 (0x8001 + x.val * 256 + y.val * 16)) = some (.orReg x y) :=
  (decodeWord_function8 x y 0x1).trans (by simp [decode8])

theorem decodeWord_andReg (x y : Reg) :
    decodeWord (BitVec.ofNat 16 (0x8002 + x.val * 256 + y.val * 16)) = some (.andReg x y) :=
  (decodeWord_function8 x y 0x2).trans (by simp [decode8])

theorem decodeWord_xorReg (x y : Reg) :
    decodeWord (BitVec.ofNat 16 (0x8003 + x.val * 256 + y.val * 16)) = some (.xorReg x y) :=
  (decodeWord_function8 x y 0x3).trans (by simp [decode8])

theorem decodeWord_addReg (x y : Reg) :
    decodeWord (BitVec.ofNat 16 (0x8004 + x.val * 256 + y.val * 16)) = some (.addReg x y) :=
  (decodeWord_function8 x y 0x4).trans (by simp [decode8])

theorem decodeWord_sub (x y : Reg) :
    decodeWord (BitVec.ofNat 16 (0x8005 + x.val * 256 + y.val * 16)) = some (.sub x y) :=
  (decodeWord_function8 x y 0x5).trans (by simp [decode8])

theorem decodeWord_shr (x y : Reg) :
    decodeWord (BitVec.ofNat 16 (0x8006 + x.val * 256 + y.val * 16)) = some (.shr x y) :=
  (decodeWord_function8 x y 0x6).trans (by simp [decode8])

theorem decodeWord_subn (x y : Reg) :
    decodeWord (BitVec.ofNat 16 (0x8007 + x.val * 256 + y.val * 16)) = some (.subn x y) :=
  (decodeWord_function8 x y 0x7).trans (by simp [decode8])

theorem decodeWord_shl (x y : Reg) :
    decodeWord (BitVec.ofNat 16 (0x800E + x.val * 256 + y.val * 16)) = some (.shl x y) :=
  (decodeWord_function8 x y 0xE).trans (by simp [decode8])

theorem decodeWord_rnd (x : Reg) (nn : Byte) :
    decodeWord (BitVec.ofNat 16 (0xC000 + x.val * 256 + nn.toNat)) = some (.rnd x nn) := by
  have hw : wordXI 0xC x nn = BitVec.ofNat 16 (0xC000 + x.val * 256 + nn.toNat) := wordXI_eq_ofNat 0xC x nn
  simp [← hw, decodeWord]

/-! ### A result and a flag -/

/-- The result goes to `x` and the flag to VF; for `x = 15` the flag remains (42_alu R123, D7). -/
theorem State.setResultThenFlag_spec (s : State) (x : Reg) (b : Byte) (c : Bool) :
    (s.setResultThenFlag x b c).getV 15 = flagByte c ∧ (x ≠ 15 → (s.setResultThenFlag x b c).getV x = b) ∧
    (∀ r, r ≠ x → r ≠ 15 → (s.setResultThenFlag x b c).getV r = s.getV r) ∧
    s.setResultThenFlag x b c = { s with v := (s.setResultThenFlag x b c).v } := by
  refine ⟨by rw [State.getV_setResultThenFlag, if_pos rfl], fun hx => ?_, fun r hr hf => ?_, rfl⟩
  · rw [State.getV_setResultThenFlag, if_neg hx, if_pos rfl]
  · rw [State.getV_setResultThenFlag, if_neg hf, if_neg hr]

/-- The flag goes to VF and the result to `x`; for `x = 15` the result remains (42_alu R123, D7). -/
theorem State.setFlagThenResult_spec (s : State) (x : Reg) (b : Byte) (c : Bool) :
    (s.setFlagThenResult x b c).getV x = b ∧ (x ≠ 15 → (s.setFlagThenResult x b c).getV 15 = flagByte c) ∧
    (∀ r, r ≠ x → r ≠ 15 → (s.setFlagThenResult x b c).getV r = s.getV r) ∧
    s.setFlagThenResult x b c = { s with v := (s.setFlagThenResult x b c).v } := by
  refine ⟨by rw [State.getV_setFlagThenResult, if_pos rfl], fun hx => ?_, fun r hr hf => ?_, rfl⟩
  · rw [State.getV_setFlagThenResult, if_neg hx.symm, if_pos rfl]
  · rw [State.getV_setFlagThenResult, if_neg hr, if_neg hf]

theorem flagByte_eq_ite {c : Bool} {p : Prop} [Decidable p] (h : c = true ↔ p) : flagByte c = if p then 1 else 0 := by
  by_cases hp : p
  · rw [if_pos hp, flagByte_eq_one_iff, h]
    exact hp
  · rw [if_neg hp, flagByte_eq_zero_iff, ← Bool.not_eq_true, h]
    exact hp

theorem flagByte_decide (p : Prop) [Decidable p] : flagByte (decide p) = if p then 1 else 0 :=
  flagByte_eq_ite decide_eq_true_iff

theorem toNat_flagByte_lowBit (a : Byte) : (flagByte (lowBit a)).toNat = a.toNat % 2 := by
  have hbit : lowBit a = decide (a.toNat % 2 = 1) := by simp [lowBit, BitVec.getLsbD, Nat.testBit_zero]
  rw [hbit, flagByte_decide]
  split <;> simp <;> omega

theorem toNat_flagByte_highBit (a : Byte) : (flagByte (highBit a)).toNat = a.toNat / 128 := by
  have hlt := a.isLt
  have hbit : highBit a = decide (a.toNat / 128 % 2 = 1) := by simp [highBit, BitVec.getLsbD, Nat.testBit_eq_decide_div_mod_eq]
  rw [hbit, flagByte_decide]
  split <;> simp <;> omega

/-- A difference of bytes is the difference of their numbers modulo 256. -/
theorem toNat_sub_byte (a b : Byte) : ((a - b).toNat : Int) = (a.toNat - b.toNat : Int) % 256 := by
  have := a.isLt
  have := b.isLt
  rw [BitVec.toNat_sub]
  omega

/-! ### The instructions -/

theorem exec_orReg (x y : Reg) (s : State) : exec (.orReg x y) s = .next (s.setV x (s.getV x ||| s.getV y)) := rfl

theorem exec_andReg (x y : Reg) (s : State) : exec (.andReg x y) s = .next (s.setV x (s.getV x &&& s.getV y)) := rfl

theorem exec_xorReg (x y : Reg) (s : State) : exec (.xorReg x y) s = .next (s.setV x (s.getV x ^^^ s.getV y)) := rfl

theorem exec_addReg (x y : Reg) (s : State) : exec (.addReg x y) s =
    .next (s.setResultThenFlag x (s.getV x + s.getV y) (carryOut (s.getV x) (s.getV y))) := rfl

theorem exec_sub (x y : Reg) (s : State) : exec (.sub x y) s =
    .next (s.setResultThenFlag x (s.getV x - s.getV y) (noBorrow (s.getV x) (s.getV y))) := rfl

theorem exec_subn (x y : Reg) (s : State) : exec (.subn x y) s =
    .next (s.setResultThenFlag x (s.getV y - s.getV x) (noBorrow (s.getV y) (s.getV x))) := rfl

theorem exec_shr (x y : Reg) (s : State) : exec (.shr x y) s =
    .next (s.setFlagThenResult x (s.getV x >>> 1) (lowBit (s.getV x))) := rfl

theorem exec_shl (x y : Reg) (s : State) : exec (.shl x y) s =
    .next (s.setFlagThenResult x (s.getV x <<< 1) (highBit (s.getV x))) := rfl

theorem exec_rnd (x : Reg) (nn : Byte) (s : State) : exec (.rnd x nn) s =
    .next ((s.setV x (Config.rand8 s.draws &&& nn)).setDraws (s.draws + 1)) := rfl

/-- Settles O22: one register is written, with the bitwise result, and no flag is. -/
theorem logicWritesOneRegister : Obligations.LogicWritesOneRegister := fun x y s =>
  ⟨decodeWord_orReg x y, decodeWord_andReg x y, decodeWord_xorReg x y,
    ⟨_, exec_orReg x y s, fun _ => by rw [State.getV_setV_same, BitVec.getLsbD_or], s.setV_frame x _⟩,
    ⟨_, exec_andReg x y s, fun _ => by rw [State.getV_setV_same, BitVec.getLsbD_and], s.setV_frame x _⟩,
    ⟨_, exec_xorReg x y s, fun _ => by rw [State.getV_setV_same, BitVec.getLsbD_xor], s.setV_frame x _⟩⟩

/-- Settles O23: the sum of two bytes is the sum modulo 256, and the flag is written after it. -/
theorem addRegistersSetsCarry : Obligations.AddRegistersSetsCarry := by
  intro x y s
  obtain ⟨hflag, hresult, hframe⟩ :=
    s.setResultThenFlag_spec x (s.getV x + s.getV y) (carryOut (s.getV x) (s.getV y))
  exact ⟨decodeWord_addReg x y, _, exec_addReg x y s, hflag.trans (flagByte_decide _),
    fun hx => by rw [hresult hx, BitVec.toNat_add], hframe⟩

/-- Settles O24: the two instructions write the same difference and flag with the operands exchanged. -/
theorem subtractSetsNoBorrow : Obligations.SubtractSetsNoBorrow := by
  intro x y s
  obtain ⟨hflag, hresult, hframe⟩ :=
    s.setResultThenFlag_spec x (s.getV x - s.getV y) (noBorrow (s.getV x) (s.getV y))
  obtain ⟨hflag', hresult', hframe'⟩ :=
    s.setResultThenFlag_spec x (s.getV y - s.getV x) (noBorrow (s.getV y) (s.getV x))
  exact ⟨decodeWord_sub x y, decodeWord_subn x y,
    ⟨_, exec_sub x y s, hflag.trans (flagByte_decide _), fun hx => by rw [hresult hx, toNat_sub_byte], hframe⟩,
    ⟨_, exec_subn x y s, hflag'.trans (flagByte_decide _), fun hx => by rw [hresult' hx, toNat_sub_byte], hframe'⟩⟩

/-- Settles O25: the bit shifted out is the remainder, or the quotient by 128, of the old value; the result is written after it. -/
theorem shiftSetsBitShiftedOut : Obligations.ShiftSetsBitShiftedOut := by
  intro x y s
  obtain ⟨hresult, hflag, hframe⟩ := s.setFlagThenResult_spec x (s.getV x >>> 1) (lowBit (s.getV x))
  obtain ⟨hresult', hflag', hframe'⟩ := s.setFlagThenResult_spec x (s.getV x <<< 1) (highBit (s.getV x))
  have hshr : (s.getV x >>> 1).toNat = (s.getV x).toNat / 2 := by
    rw [BitVec.toNat_ushiftRight, Nat.shiftRight_eq_div_pow, Nat.pow_one]
  have hshl : (s.getV x <<< 1).toNat = (s.getV x).toNat * 2 % 256 := by
    rw [BitVec.toNat_shiftLeft, Nat.shiftLeft_eq, Nat.pow_one]
  exact ⟨decodeWord_shr x y, decodeWord_shl x y,
    ⟨_, exec_shr x y s, by rw [hresult, hshr], fun hx => by rw [hflag hx, toNat_flagByte_lowBit], hframe⟩,
    ⟨_, exec_shl x y s, by rw [hresult', hshl], fun hx => by rw [hflag' hx, toNat_flagByte_highBit], hframe'⟩⟩

/-- Settles O26: the register holds the drawn value AND `nn`, and a conjunction has no bit that `nn` has not. -/
theorem randomIsMaskedFreshDraw : Obligations.RandomIsMaskedFreshDraw := by
  intro x nn s
  have hv : ((s.setV x (Config.rand8 s.draws &&& nn)).setDraws (s.draws + 1)).getV x = Config.rand8 s.draws &&& nn :=
    s.getV_setV_same x _
  refine ⟨decodeWord_rnd x nn, _, exec_rnd x nn s, hv, rfl, ?_, fun k hk => ?_, ?_, (s.setV_frame x _).1, rfl⟩
  · rw [hv, BitVec.toNat_and]
    exact Nat.and_le_right
  · rw [hv, BitVec.getLsbD_and, hk, Bool.and_false]
  · rintro rfl
    exact hv.trans BitVec.and_zero

end Sys2Proof.Machine

/-! PROOFS. Index arithmetic and memory transfers (spec/43_index_memory.md R131 to R136): the words of Fx1E, Fx33, Fx55 and Fx65
as numbers, what storing bytes at `I` leaves, and what the four instructions do inside and outside memory. -/

namespace Sys2Proof.Machine

variable {s t : State} {x : Reg}

/-! ### The words -/

theorem decodeWord_addI (x : Reg) : decodeWord (BitVec.ofNat 16 (0xF01E + x.val * 256)) = some (.addI x) :=
  (decodeWord_functionF x 0x1E).trans (by simp [decodeF])

theorem decodeWord_ldB (x : Reg) : decodeWord (BitVec.ofNat 16 (0xF033 + x.val * 256)) = some (.ldB x) :=
  (decodeWord_functionF x 0x33).trans (by simp [decodeF])

theorem decodeWord_stRegs (x : Reg) : decodeWord (BitVec.ofNat 16 (0xF055 + x.val * 256)) = some (.stRegs x) :=
  (decodeWord_functionF x 0x55).trans (by simp [decodeF])

theorem decodeWord_ldRegs (x : Reg) : decodeWord (BitVec.ofNat 16 (0xF065 + x.val * 256)) = some (.ldRegs x) :=
  (decodeWord_functionF x 0x65).trans (by simp [decodeF])

/-! ### Storing bytes -/

theorem storeAtI_of_inside {bytes : List Byte} (h : s.ireg.toNat + bytes.length ≤ 4096) :
    storeAtI s bytes = .next (s.setMem (s.mem.writeBytes (indexBase s) bytes)) :=
  withBytesAtI_of_inside _ (Or.inr h)

/-- A store of at least one byte that does not fault has its bytes inside memory. -/
theorem storeAtI_cases {bytes : List Byte} (h : storeAtI s bytes = .next t) (h0 : bytes.length ≠ 0) :
    s.ireg.toNat + bytes.length ≤ 4096 ∧ t = s.setMem (s.mem.writeBytes (indexBase s) bytes) := by
  obtain ⟨hin, rfl⟩ := inside_of_withBytesAtI h
  exact ⟨hin.resolve_left h0, rfl⟩

/-! ### The instructions -/

theorem exec_addI (x : Reg) (s : State) : exec (.addI x) s = .next (s.setI (indexPlus s x)) := rfl

theorem exec_ldB_of_inside (x : Reg) (h : s.ireg.toNat + 3 ≤ 4096) : exec (.ldB x) s =
    .next (s.setMem (s.mem.writeBytes (indexBase s) (decimalDigits (s.getV x)))) := storeAtI_of_inside h

theorem exec_stRegs_of_inside (h : s.ireg.toNat + x.val + 1 ≤ 4096) : exec (.stRegs x) s =
    .next (s.setMem (s.mem.writeBytes (indexBase s) (regsUpTo s x))) :=
  storeAtI_of_inside (by rw [length_regsUpTo]; omega)

theorem exec_ldRegs_of_inside (h : s.ireg.toNat + x.val + 1 ≤ 4096) : exec (.ldRegs x) s =
    .next (s.setRegs (regsFromMemory s x)) := withBytesAtI_of_inside _ (Or.inr h)

/-- A transfer of digits that does not fault has its three bytes inside memory. -/
theorem exec_ldB_cases (h : exec (.ldB x) s = .next t) : s.ireg.toNat + 3 ≤ 4096 ∧
    t = s.setMem (s.mem.writeBytes (indexBase s) (decimalDigits (s.getV x))) :=
  storeAtI_cases h (Nat.succ_ne_zero 2)

/-- A store of registers that does not fault has its bytes inside memory. -/
theorem exec_stRegs_cases (h : exec (.stRegs x) s = .next t) : s.ireg.toNat + x.val + 1 ≤ 4096 ∧
    t = s.setMem (s.mem.writeBytes (indexBase s) (regsUpTo s x)) := by
  obtain ⟨hin, rfl⟩ := storeAtI_cases h (by rw [length_regsUpTo]; omega)
  rw [length_regsUpTo] at hin
  exact ⟨hin, rfl⟩

/-- The bytes at `I` upward after a store of registers are those registers. -/
theorem read_writeBytes_regsUpTo (hm : s.mem.wf = true) (hin : s.ireg.toNat + x.val + 1 ≤ 4096) {r : Reg} (hr : r ≤ x) :
    (s.mem.writeBytes (indexBase s) (regsUpTo s x)).read (indexBase s + r.val) = s.getV r := by
  have hlen : indexBase s + (regsUpTo s x).length ≤ 4096 := by rw [length_regsUpTo]; exact hin
  have hk : r.val < (regsUpTo s x).length := by rw [length_regsUpTo]; exact Nat.lt_succ_of_le hr
  rw [Memory.read_writeBytes_inside hm hlen hk, getElem_regsUpTo]

/-- Settles O28: a write to `I` alone, whose sum `toNat_indexPlus` gives. -/
theorem addToIndexWraps : Obligations.AddToIndexWraps := fun x s =>
  ⟨decodeWord_addI x, _, exec_addI x s, toNat_indexPlus s x, rfl⟩

/-- Settles O30: the three digits are the bytes written, each below 256, and every other address is outside them. -/
theorem decimalDigitsStored : Obligations.DecimalDigitsStored := by
  intro x s hm hI
  have hin : indexBase s + (decimalDigits (s.getV x)).length ≤ 4096 := by
    rw [length_decimalDigits]
    simp only [indexBase]
    omega
  have hdigit : ∀ k (hk : k < 3), ((s.mem.writeBytes (indexBase s) (decimalDigits (s.getV x))).read (indexBase s + k)).toNat =
      (decimalDigits (s.getV x))[k].toNat := fun k hk => congrArg BitVec.toNat (Memory.read_writeBytes_inside hm hin hk)
  have hbyte := (s.getV x).isLt
  exact ⟨decodeWord_ldB x, _, exec_ldB_of_inside x hin, (hdigit 0 (by decide)).trans (Nat.mod_eq_of_lt (by omega)),
    (hdigit 1 (by decide)).trans (Nat.mod_eq_of_lt (by omega)), (hdigit 2 (by decide)).trans (Nat.mod_eq_of_lt (by omega)),
    fun a ha => Memory.read_writeBytes_outside hm hin ha, rfl, rfl⟩

/-- Settles O31: `read_writeBytes_regsUpTo` inside the bytes written, and every other address is outside them. -/
theorem registersStored : Obligations.RegistersStored := by
  intro x s hm hI
  have hin : s.ireg.toNat + x.val + 1 ≤ 4096 := by omega
  have hlen : indexBase s + (regsUpTo s x).length ≤ 4096 := by rw [length_regsUpTo]; exact hin
  refine ⟨decodeWord_stRegs x, _, exec_stRegs_of_inside hin, fun r hr => read_writeBytes_regsUpTo hm hin hr,
    fun a ha => Memory.read_writeBytes_outside hm hlen ?_, rfl, rfl⟩
  rw [length_regsUpTo]
  omega

/-- Settles O32: `getElem_regsFromMemory` says which registers come from memory. -/
theorem registersLoaded : Obligations.RegistersLoaded := by
  intro x s hI
  have hin : s.ireg.toNat + x.val + 1 ≤ 4096 := by omega
  refine ⟨decodeWord_ldRegs x, _, exec_ldRegs_of_inside hin, fun r hr => ?_, fun r hr => ?_, rfl⟩
  · rw [State.getV_setRegs, getElem_regsFromMemory, if_pos hr]
  · rw [State.getV_setRegs, getElem_regsFromMemory, if_neg (not_le.2 hr)]

/-- Settles O33: each of the four checks its whole range before it changes anything. -/
theorem accessOutsideMemoryFaults : Obligations.AccessOutsideMemoryFaults := by
  intro x y n s
  have hlen : (regsUpTo s x).length = x.val + 1 := length_regsUpTo s x
  refine ⟨fun hn h => ?_, fun h => ?_, fun h => ?_, fun h => ?_⟩
  · have hn0 : n.toNat ≠ 0 := fun h0 => hn (BitVec.eq_of_toNat_eq h0)
    exact withBytesAtI_of_outside _ hn0 (by omega)
  · exact withBytesAtI_of_outside _ (Nat.succ_ne_zero 2) (by rw [length_decimalDigits]; omega)
  · exact withBytesAtI_of_outside _ (by omega) (by omega)
  · exact withBytesAtI_of_outside _ (Nat.succ_ne_zero x.val) (by omega)

/-- Settles O34: the load reads the bytes at `I` upward, which are the registers the store wrote there. -/
theorem loadUndoesStore : Obligations.LoadUndoesStore := by
  intro x s t u hm h hmem hI
  obtain ⟨hin, rfl⟩ := exec_stRegs_cases h
  have hbase : u.ireg.toNat = indexBase s := congrArg BitVec.toNat hI
  have hin' : u.ireg.toNat + x.val + 1 ≤ 4096 := hbase ▸ hin
  refine ⟨_, exec_ldRegs_of_inside hin', fun r hr => ?_⟩
  rw [State.getV_setRegs, getElem_regsFromMemory, if_pos hr, hmem, hbase]
  exact read_writeBytes_regsUpTo hm hin hr

/-- Settles O35: the bytes at `pc` and `pc + 1` are the two registers the store wrote there. -/
theorem storeVisibleToFetch : Obligations.StoreVisibleToFetch := by
  intro x r r' s t u hm h hmem hr' hx hpc
  obtain ⟨hin, rfl⟩ := exec_stRegs_cases h
  have hlast : r'.val ≤ x.val := hx
  have hhigh : u.mem.read u.pc.toNat = s.getV r := by
    rw [hmem, hpc]
    exact read_writeBytes_regsUpTo hm hin (show r.val ≤ x.val by omega)
  have hlow : u.mem.read (u.pc.toNat + 1) = s.getV r' := by
    rw [hmem, hpc, Nat.add_assoc, ← hr']
    exact read_writeBytes_regsUpTo hm hin hx
  rw [fetch_of_le (by omega), hhigh, hlow, wordOfBytes]

end Sys2Proof.Machine

/-! PROOFS. The sprite (spec/44_display.md R141 to R144): the word of Dxyn as a number, the pixels under a sprite's set bits, and
what one draw and two draws leave in the display and in VF. -/

namespace Sys2Proof.Machine

variable {s t : State} {x y : Reg} {n : Nibble}

theorem decodeWord_drw (x y : Reg) (n : Nibble) :
    decodeWord (BitVec.ofNat 16 (0xD000 + x.val * 256 + y.val * 16 + n.toNat)) = some (.drw x y n) := by
  have hw : wordXY 0xD x y n = BitVec.ofNat 16 (0xD000 + x.val * 256 + y.val * 16 + n.toNat) := wordXY_eq_ofNat 0xD x y n
  simp [← hw, decodeWord]

/-! ### The pixels under a sprite -/

/-- The pixels under the set bits of Dxyn's sprite: bit `7 - c` of row byte `k` lies over column `V[x] + c`, row `V[y] + k`. -/
def UnderSprite (x y : Reg) (n : Nibble) (s : State) (col : Fin 64) (row : Fin 32) : Prop :=
  ∃ k c, k < n.toNat ∧ c < 8 ∧ (s.mem.read (s.ireg.toNat + k)).getLsbD (7 - c) = true ∧
    ((s.getV x).toNat + c) % 64 = col.val ∧ ((s.getV y).toNat + k) % 32 = row.val

/-- The drawing of Dxyn inverts the pixels under its sprite, each once, since a sprite has fewer than 32 rows. -/
theorem drawn_inverts (x y : Reg) (n : Nibble) (s : State) :
    Inverts (UnderSprite x y n s) (s.disp, false) (drawn x y n s) := by
  have hrows : (spriteRows s n).length ≤ 32 := by
    have := n.isLt
    rw [length_spriteRows]
    omega
  refine (drawSprite_inverts _ _ _ _ hrows).congr fun col row => ?_
  constructor
  · rintro ⟨k, b, hk, c, hc, hb, rfl, rfl⟩
    obtain ⟨hkn, rfl⟩ := (getElem?_spriteRows s n k b).1 hk
    exact ⟨k, c, hkn, hc, hb, rfl, rfl⟩
  · rintro ⟨k, c, hkn, hc, hb, hcol, hrow⟩
    exact ⟨k, _, (getElem?_spriteRows s n k _).2 ⟨hkn, rfl⟩, c, hc, hb, Fin.ext hcol.symm, Fin.ext hrow.symm⟩

/-- An inverted pixel differs from what it was, and only an inverted one does. -/
theorem Inverts.pixel_ne_iff {P : Fin 64 → Fin 32 → Prop} {g g' : Drawing} (h : Inverts P g g') (col : Fin 64) (row : Fin 32) :
    g'.1.pixel col row ≠ g.1.pixel col row ↔ P col row := by
  have := h.1 col row
  rw [Ne, Bool.eq_iff_iff]
  tauto

/-- With the latch clear at the start it is set exactly when some pixel went from set to clear. -/
theorem Inverts.latch_iff {P : Fin 64 → Fin 32 → Prop} {d : Display} {g' : Drawing} (h : Inverts P (d, false) g') :
    g'.2 = true ↔ ∃ col row, d.pixel col row = true ∧ g'.1.pixel col row = false := by
  rw [h.2]
  simp only [Bool.false_eq_true, false_or]
  refine exists₂_congr fun col row => ?_
  have := h.1 col row
  rw [← Bool.not_eq_true]
  tauto

/-- Inverting the same pixels twice restores the display. -/
theorem Inverts.restores {P : Fin 64 → Fin 32 → Prop} {g g' h h' : Drawing} (hg : Inverts P g g') (hh : Inverts P h h')
    (heq : h.1 = g'.1) : h'.1 = g.1 := by
  refine Display.ext_pixel fun col row => ?_
  have hfirst := hg.1 col row
  have hsecond := hh.1 col row
  rw [heq] at hsecond
  rw [Bool.eq_iff_iff]
  tauto

/-! ### The instruction -/

theorem exec_drw_of_inside (h : n.toNat = 0 ∨ s.ireg.toNat + n.toNat ≤ 4096) : exec (.drw x y n) s =
    .next ((s.setDisp (drawn x y n s).1).setFlag (drawn x y n s).2) := withBytesAtI_of_inside _ h

/-- A draw that does not fault has its sprite inside memory. -/
theorem exec_drw_cases (h : exec (.drw x y n) s = .next t) : (n.toNat = 0 ∨ s.ireg.toNat + n.toNat ≤ 4096) ∧
    t = (s.setDisp (drawn x y n s).1).setFlag (drawn x y n s).2 := by
  obtain ⟨hin, rfl⟩ := inside_of_withBytesAtI h
  exact ⟨hin, rfl⟩

theorem getV_flag_setFlag (s : State) (c : Bool) : (s.setFlag c).getV 15 = flagByte c := by
  rw [State.getV_setFlag, if_pos rfl]

/-- Settles O37: the display by `drawn_inverts`, the flag by the latch, which the instruction writes to VF once. -/
theorem drawInvertsSpritePixels : Obligations.DrawInvertsSpritePixels := by
  intro x y n s h
  have hin : n.toNat = 0 ∨ s.ireg.toNat + n.toNat ≤ 4096 :=
    h.imp (fun h0 => by rw [h0]; rfl) (fun _ => by omega)
  have hinv := drawn_inverts x y n s
  refine ⟨decodeWord_drw x y n, _, exec_drw_of_inside hin, hinv.pixel_ne_iff, fun hc => ?_, fun hc => ?_, fun r hr => ?_, rfl⟩
  · rw [getV_flag_setFlag, flagByte_eq_one_iff]
    exact hinv.latch_iff.2 hc
  · rw [getV_flag_setFlag, flagByte_eq_zero_iff, ← Bool.not_eq_true]
    exact fun hlatch => hc (hinv.latch_iff.1 hlatch)
  · rw [State.getV_setFlag, if_neg hr, State.setDisp_getV]

/-- The pixels under a sprite depend on memory, `I` and the two coordinates alone. -/
theorem underSprite_congr {u : State} (hmem : u.mem = s.mem) (hI : u.ireg = s.ireg) (hx : u.getV x = s.getV x)
    (hy : u.getV y = s.getV y) : UnderSprite x y n u = UnderSprite x y n s := by
  unfold UnderSprite
  rw [hmem, hI, hx, hy]

/-- Settles O38: the first draw changes neither memory nor `I` nor the two coordinates, so the second inverts the same pixels;
a pixel that the second clears is one that the first set. -/
theorem drawTwiceRestoresDisplay : Obligations.DrawTwiceRestoresDisplay := by
  intro x y n s t u hx hy h hu
  obtain ⟨p, rfl⟩ : ∃ p, u = t.setPc p := ⟨u.pc, hu⟩
  obtain ⟨hin, ht⟩ := exec_drw_cases h
  have hmem : t.mem = s.mem := ht ▸ rfl
  have hI : t.ireg = s.ireg := ht ▸ rfl
  have hdisp : t.disp = (drawn x y n s).1 := ht ▸ rfl
  have hv : ∀ r, r ≠ 15 → t.getV r = s.getV r := fun r hr => by
    rw [ht, State.getV_setFlag, if_neg hr, State.setDisp_getV]
  have hfirst := drawn_inverts x y n s
  have hsecond : Inverts (UnderSprite x y n s) (t.disp, false) (drawn x y n (t.setPc p)) :=
    underSprite_congr (u := t.setPc p) hmem hI (hv x hx) (hv y hy) ▸ drawn_inverts x y n (t.setPc p)
  have hrestored : (drawn x y n (t.setPc p)).1 = s.disp := hfirst.restores hsecond hdisp
  refine ⟨_, exec_drw_of_inside (hI ▸ hin), hrestored, ?_⟩
  rw [getV_flag_setFlag]
  refine flagByte_eq_ite (hsecond.latch_iff.trans ?_)
  rw [hrestored]
  exact exists₂_congr fun col row => and_comm

end Sys2Proof.Machine

/-! PROOFS. What an instruction changes (spec/10_state.md R20): the elements each instruction may write, said once as an update of
those alone; which registers it writes; which bytes it stores. -/

namespace Sys2Proof.Machine

variable {i : Instr} {s t : State}

/-! ### The elements -/

/-- `t` is `s` with other values in the elements that 10_state R20 lists for the instruction, and in no other; for the two loads
of a timer the value is given. -/
def ChangesOnly (i : Instr) (s t : State) : Prop :=
  match i with
  | .nop => t = s
  | .jp _ | .jpV0 _ | .seImm _ _ | .sneImm _ _ | .seReg _ _ | .sneReg _ _ | .skp _ | .sknp _ => ∃ p, t = s.setPc p
  | .ret => ∃ n p, t = (s.setStack s.stack n).setPc p
  | .call _ => ∃ e n p, t = (s.setStack e n).setPc p
  | .ldVxK _ => ∃ p v, t = (s.setPc p).setRegs v
  | .ldI _ | .addI _ | .ldF _ => ∃ w, t = s.setI w
  | .ldB _ | .stRegs _ => ∃ m, t = s.setMem m
  | .cls => ∃ d, t = s.setDisp d
  | .drw _ _ _ => ∃ d v, t = (s.setDisp d).setRegs v
  | .ldDtVx x => t = s.setDt (s.getV x)
  | .ldStVx x => t = s.setSt (s.getV x)
  | .rnd _ _ => ∃ v n, t = (s.setRegs v).setDraws n
  | _ => ∃ v, t = s.setRegs v

theorem State.skipIf_eq_setPc (s : State) (c : Bool) : s.skipIf c = s.setPc (if c then s.pc + 2 else s.pc) := by
  cases c <;> rfl

/-- The instructions that answer a next state on every path are read off; the others by their inversion lemmas. -/
theorem exec_changesOnly (h : exec i s = .next t) : ChangesOnly i s t := by
  cases i with
  | nop | ldDtVx | ldStVx => exact (Host.Outcome.next.inj h).symm
  | jp | jpV0 => exact ⟨_, (Host.Outcome.next.inj h).symm⟩
  | seImm | sneImm | seReg | sneReg => exact ⟨_, (Host.Outcome.next.inj h).symm.trans (s.skipIf_eq_setPc _)⟩
  | skp | sknp =>
    obtain ⟨b, -, ht⟩ := skipOnKey_cases h
    exact ⟨_, ht.trans (s.skipIf_eq_setPc _)⟩
  | ret =>
    obtain ⟨n, hn, -, ht⟩ := exec_ret_cases h
    exact ⟨_, _, ht⟩
  | call =>
    obtain ⟨hlt, ht⟩ := exec_call_cases h
    exact ⟨_, _, _, ht⟩
  | ldVxK x =>
    cases hk : s.lowestKey with
    | none => exact ⟨s.pc0, s.v, Host.Outcome.next.inj (h.symm.trans (exec_ldVxK_of_none x hk))⟩
    | some k => exact ⟨s.pc, _, Host.Outcome.next.inj (h.symm.trans (exec_ldVxK_of_some x hk))⟩
  | ldB => exact ⟨_, (exec_ldB_cases h).2⟩
  | stRegs => exact ⟨_, (exec_stRegs_cases h).2⟩
  | ldRegs => exact ⟨_, (inside_of_withBytesAtI h).2.symm⟩
  | drw => exact ⟨_, _, (exec_drw_cases h).2⟩
  | rnd => exact ⟨_, _, (Host.Outcome.next.inj h).symm⟩
  | _ => exact ⟨_, (Host.Outcome.next.inj h).symm⟩

/-! ### The registers -/

/-- Settles O46: a write to one register, a result with a flag, the flag alone, the load from memory; every other instruction
leaves the registers alone. -/
theorem registersChangeOnlyByTheirWriters : Obligations.RegistersChangeOnlyByTheirWriters := by
  intro i s t r h hr
  have hc := exec_changesOnly h
  cases i with
  | nop | ldDtVx | ldStVx => exact hc ▸ rfl
  | jp | jpV0 | seImm | sneImm | seReg | sneReg | skp | sknp | ldI | addI | ldF | ldB | stRegs | cls =>
    obtain ⟨_, rfl⟩ := hc
    rfl
  | ret =>
    obtain ⟨_, _, rfl⟩ := hc
    rfl
  | call =>
    obtain ⟨_, _, _, rfl⟩ := hc
    rfl
  | ldImm x | addImm x | ldReg x | orReg x | andReg x | xorReg x | ldVxDt x | rnd x =>
    exact Host.Outcome.next.inj h ▸ (s.setV_frame x _).1 r hr
  | addReg x | sub x | subn x =>
    obtain ⟨hx, hflag⟩ := not_or.1 hr
    exact Host.Outcome.next.inj h ▸ (s.getV_setResultThenFlag x r _ _).trans ((if_neg hflag).trans (if_neg hx))
  | shr x | shl x =>
    obtain ⟨hx, hflag⟩ := not_or.1 hr
    exact Host.Outcome.next.inj h ▸ (s.getV_setFlagThenResult x r _ _).trans ((if_neg hx).trans (if_neg hflag))
  | drw =>
    rw [(exec_drw_cases h).2, State.getV_setFlag]
    exact if_neg hr
  | ldRegs x =>
    rw [← (inside_of_withBytesAtI h).2, State.getV_setRegs, getElem_regsFromMemory]
    exact if_neg hr
  | ldVxK x =>
    cases hk : s.lowestKey with
    | none => exact Host.Outcome.next.inj ((exec_ldVxK_of_none x hk).symm.trans h) ▸ rfl
    | some k => exact Host.Outcome.next.inj ((exec_ldVxK_of_some x hk).symm.trans h) ▸ (s.setV_frame x _).1 r hr

/-- Settles O45: the elements outside `ChangesOnly` have their old values, those in it have the instruction listed; the register
clause is O46. -/
theorem elementsWrittenOnlyByTheirInstructions : Obligations.ElementsWrittenOnlyByTheirInstructions := by
  intro i s t h
  have hregs : ∀ r, t.getV r ≠ s.getV r → WritesReg i r := fun r hr =>
    by_contra fun hw => hr (registersChangeOnlyByTheirWriters i s t r h hw)
  have hc := exec_changesOnly h
  cases i with
  | nop | ldDtVx | ldStVx =>
    obtain rfl := hc
    simp
  | jp | jpV0 | seImm | sneImm | seReg | sneReg | skp | sknp | ldI | addI | ldF | ldB | stRegs | cls =>
    obtain ⟨_, rfl⟩ := hc
    simp
  | ret =>
    obtain ⟨_, _, rfl⟩ := hc
    simp
  | call =>
    obtain ⟨_, _, _, rfl⟩ := hc
    simp
  | ldVxK | drw | rnd =>
    obtain ⟨_, _, rfl⟩ := hc
    simpa using hregs
  | _ =>
    obtain ⟨_, rfl⟩ := hc
    simpa using hregs

/-! ### Memory and the stack -/

theorem exec_mem_of_not_store (h : exec i s = .next t) (hldB : ∀ x, i ≠ .ldB x) (hstRegs : ∀ x, i ≠ .stRegs x) :
    t.mem = s.mem := by
  obtain ⟨hmem, -⟩ := elementsWrittenOnlyByTheirInstructions i s t h
  by_contra hne
  obtain ⟨x, hi | hi⟩ := hmem hne
  · exact hldB x hi
  · exact hstRegs x hi

theorem exec_stack_sp_of_not_call_ret (h : exec i s = .next t) (hcall : ∀ nnn, i ≠ .call nnn) (hret : i ≠ .ret) :
    t.stack = s.stack ∧ t.sp = s.sp := by
  obtain ⟨-, -, -, -, hstack, hsp, -⟩ := elementsWrittenOnlyByTheirInstructions i s t h
  refine ⟨by_contra fun hne => ?_, by_contra fun hne => ?_⟩
  · obtain ⟨nnn, hi⟩ := hstack hne
    exact hcall nnn hi
  · obtain hi | ⟨nnn, hi⟩ := hsp hne
    · exact hret hi
    · exact hcall nnn hi

/-- Settles O47: the two stores write inside their own bytes; every other instruction leaves memory alone, by O45. -/
theorem memoryChangesOnlyAtStoredBytes : Obligations.MemoryChangesOnlyAtStoredBytes := by
  intro i s t a hm h ha
  cases i with
  | ldB x =>
    obtain ⟨hin, rfl⟩ := exec_ldB_cases h
    exact Memory.read_writeBytes_outside hm hin ha
  | stRegs x =>
    obtain ⟨hin, rfl⟩ := exec_stRegs_cases h
    have hlen : (regsUpTo s x).length = storeLength (.stRegs x) := length_regsUpTo s x
    exact Memory.read_writeBytes_outside hm (hlen ▸ hin) (hlen ▸ ha)
  | _ => exact congrArg (fun m : Memory => m.read a) (exec_mem_of_not_store h nofun nofun)

end Sys2Proof.Machine

/-! PROOFS. When an instruction runs (spec/60_exceptions.md R160 to R169, spec/70_reset_and_hazards.md R195): a next state where its
condition holds, else the fault that names it; so every step answers a next state or a fault. -/

namespace Sys2Proof.Machine

variable {i : Instr} {s : State}

/-- The instructions that 60_exceptions R168 lists for each fault. -/
def RaisedBy (f : Fault) (i : Instr) : Prop :=
  match f with
  | .unknownOpcode _ => False
  | .stackOverflow _ => ∃ nnn, i = .call nnn
  | .stackUnderflow _ => i = .ret
  | .addressOutOfRange _ => (∃ x y n, i = .drw x y n) ∨ ∃ x, i = .ldB x ∨ i = .stRegs x ∨ i = .ldRegs x
  | .keyOperandOutOfRange _ => ∃ x, i = .skp x ∨ i = .sknp x

/-- The instructions without a condition answer a next state on every path. -/
theorem exec_of_runs (h : Runs i s) : ∃ t, exec i s = .next t := by
  cases i with
  | ret =>
    obtain ⟨n, hn⟩ := Nat.exists_eq_add_one.2 h
    exact ⟨_, exec_ret_of_succ hn (by omega)⟩
  | call nnn => exact ⟨_, exec_call_of_lt nnn h⟩
  | drw => exact ⟨_, exec_drw_of_inside (h.imp_left (congrArg BitVec.toNat))⟩
  | ldB x => exact ⟨_, exec_ldB_of_inside x h⟩
  | stRegs => exact ⟨_, exec_stRegs_of_inside h⟩
  | ldRegs => exact ⟨_, exec_ldRegs_of_inside h⟩
  | skp => exact ⟨_, skipOnKey_of_lt true (Nat.lt_succ_of_le h)⟩
  | sknp => exact ⟨_, skipOnKey_of_lt false (Nat.lt_succ_of_le h)⟩
  | ldVxK x =>
    cases hk : s.lowestKey with
    | none => exact ⟨_, exec_ldVxK_of_none x hk⟩
    | some k => exact ⟨_, exec_ldVxK_of_some x hk⟩
  | _ => exact ⟨_, rfl⟩

/-- Where its condition fails, an instruction raises a fault listed for it; the memory faults are those of O33. -/
theorem exec_of_not_runs (h : ¬ Runs i s) : ∃ f, exec i s = .fault f ∧ RaisedBy f i := by
  cases i with
  | ret => exact ⟨_, exec_ret_of_empty (Nat.eq_zero_of_not_pos h), rfl⟩
  | call nnn =>
    have hfull : ¬ s.sp.val < 16 := h
    exact ⟨_, exec_call_of_full nnn (by omega), nnn, rfl⟩
  | drw x y n =>
    obtain ⟨hn, hout⟩ := not_or.1 h
    obtain ⟨hdrw, -⟩ := accessOutsideMemoryFaults x y n s
    exact ⟨_, hdrw hn (by omega), Or.inl ⟨x, y, n, rfl⟩⟩
  | ldB x =>
    have hout : ¬ s.ireg.toNat + 3 ≤ 4096 := h
    obtain ⟨-, hldB, -⟩ := accessOutsideMemoryFaults x x 0 s
    exact ⟨_, hldB (by omega), Or.inr ⟨x, Or.inl rfl⟩⟩
  | stRegs x =>
    have hout : ¬ s.ireg.toNat + x.val + 1 ≤ 4096 := h
    obtain ⟨-, -, hstRegs, -⟩ := accessOutsideMemoryFaults x x 0 s
    exact ⟨_, hstRegs (by omega), Or.inr ⟨x, Or.inr (Or.inl rfl)⟩⟩
  | ldRegs x =>
    have hout : ¬ s.ireg.toNat + x.val + 1 ≤ 4096 := h
    obtain ⟨-, -, -, hldRegs⟩ := accessOutsideMemoryFaults x x 0 s
    exact ⟨_, hldRegs (by omega), Or.inr ⟨x, Or.inr (Or.inr rfl)⟩⟩
  | skp x => exact ⟨_, skipOnKey_of_gt true (not_le.1 h), x, Or.inl rfl⟩
  | sknp x => exact ⟨_, skipOnKey_of_gt false (not_le.1 h), x, Or.inr rfl⟩
  | _ => exact (h trivial).elim

theorem raisedBy_of_exec_fault {f : Fault} (h : exec i s = .fault f) : RaisedBy f i := by
  by_cases hr : Runs i s
  · obtain ⟨t, ht⟩ := exec_of_runs hr
    cases h.symm.trans ht
  · obtain ⟨f', hf', hraised⟩ := exec_of_not_runs hr
    exact Host.Outcome.fault.inj (hf'.symm.trans h) ▸ hraised

/-- Settles O48: `Runs` decides between a next state and a fault, and a fault is one of those listed for the instruction. -/
theorem instructionsRunOrRaiseTheirFault : Obligations.InstructionsRunOrRaiseTheirFault := by
  refine ⟨fun _ _ h => exec_of_runs h, fun i s h => ?_, fun i s f h => ?_⟩
  · obtain ⟨f, hf, -⟩ := exec_of_not_runs h
    exact ⟨f, hf⟩
  · have hraised := raisedBy_of_exec_fault h
    cases f <;> exact hraised

theorem exec_next_or_fault (i : Instr) (s : State) : (∃ t, exec i s = .next t) ∨ ∃ f, exec i s = .fault f := by
  by_cases hr : Runs i s
  · exact Or.inl (exec_of_runs hr)
  · obtain ⟨f, hf, -⟩ := exec_of_not_runs hr
    exact Or.inr ⟨f, hf⟩

/-! ### The step -/

theorem step_of_gt (h : 4094 < s.pc.toNat) : step s = .fault (.addressOutOfRange (max s.pc.toNat 4096)) := by
  simp only [step, stepWith, fetch_of_gt h, raise, lowestOutside, Config.memSize]

/-- Settles O49: the fetch and the decoding end in a fault or go on to an instruction, which answers a next state or a fault. -/
theorem stepIsOkOrFault : Obligations.StepIsOkOrFault := by
  intro s
  cases hf : fetch s with
  | none =>
    have hpc : 4094 < s.pc.toNat := by
      by_contra hle
      cases hf.symm.trans (fetch_of_le (not_lt.1 hle))
    exact Or.inr ⟨_, step_of_gt hpc⟩
  | some w =>
    cases hd : decodeWord w with
    | none => exact Or.inr ⟨_, step_of_decodeWord_none hf hd⟩
    | some i =>
      rw [step_of_decodeWord hf hd]
      exact (exec_next_or_fault i s.advance).imp (fun ⟨t, ht⟩ => ⟨t.decay, by rw [ht, finish]⟩)
        fun ⟨f, hf⟩ => ⟨f, by rw [hf, finish]⟩

/-- Settles O8: the step is `finish` of the instruction, which on a next state is the decay as one update. -/
theorem stepRunsDecodedInstruction : Obligations.StepRunsDecodedInstruction := by
  intro s w i hf hd
  have hstep : step s = finish (exec i { s with pc := s.pc + 2 }) := step_of_decodeWord hf hd
  rw [hstep]
  cases exec i { s with pc := s.pc + 2 } with
  | next t => exact congrArg Host.Outcome.next t.decay_eq
  | fault f => rfl
  | refused r => rfl

/-! ### The step as an operation of the host -/

theorem hostStep_of_fault {f : Fault} (h : step s = .fault f) : hostStep s = (.fault f, s.leftByFault) := by
  rw [hostStep, h]

/-- Settles O6: a fetch fault leaves the state as it was, so the next step is the same step. -/
theorem fetchOutsideMemoryFaults : Obligations.FetchOutsideMemoryFaults := by
  intro s h
  refine ⟨step_of_gt h, ?_⟩
  rw [hostStep_of_fault (step_of_gt h), State.leftByFault_eq, if_neg (not_le.2 h)]

/-- Settles O59: after a fetch the failing step leaves the advanced state. -/
theorem failingStepOnlyAdvancesPc : Obligations.FailingStepOnlyAdvancesPc := by
  intro s f hpc h
  rw [hostStep_of_fault h, State.leftByFault_eq, if_pos hpc]
  rfl

/-! ### The quiescent state -/

theorem State.decay_of_zero (hdt : s.dt = 0) (hst : s.st = 0) : s.decay = s := by
  refine State.ext_fields rfl rfl rfl rfl rfl rfl ?_ ?_ rfl rfl ?_ rfl
  · rw [State.decay_dt, hdt, countDown, if_pos rfl]
  · rw [State.decay_st, hst, countDown, if_pos rfl]
  · simp [hst]

/-- Settles O60: the jump takes `pc` back to itself, and timers at 0 stay. -/
theorem quiescentStateStays : Obligations.QuiescentStateStays := by
  rintro s ⟨⟨nnn, hf, hpc⟩, hdt, hst⟩
  have hback : s.advance.setPc (absolute nnn) = s := by rw [hpc]; rfl
  calc step s = finish (exec (.jp nnn) s.advance) := step_of_decodeWord hf (decodeWord_encode _)
    _ = .next s.decay := by rw [exec_jp, finish, hback]
    _ = .next s := by rw [State.decay_of_zero hdt hst]

end Sys2Proof.Machine

/-! PROOFS. Loaded timers and the beep latch (spec/45_timers_keys.md R152 to R155): the decay of the step that loads a timer, and when
a step sets `beep`. -/

namespace Sys2Proof.Machine

variable {i : Instr} {s t : State}

/-- Settles O42: the step decays the state in which the timer is already loaded. -/
theorem loadedTimerDecaysAtOnce : Obligations.LoadedTimerDecaysAtOnce := by
  intro x s
  refine ⟨fun hf => ?_, fun hf => ?_⟩
  · have hstep : step s = .next (s.advance.setDt (s.getV x)).decay := step_of_decodeWord hf (decodeWord_ldDtVx x)
    exact ⟨_, hstep, toNat_countDown (s.getV x)⟩
  · have hstep : step s = .next (s.advance.setSt (s.getV x)).decay := step_of_decodeWord hf (decodeWord_ldStVx x)
    exact ⟨_, hstep, toNat_countDown (s.getV x), (s.advance.setSt (s.getV x)).decay_beep_iff⟩

/-- The sound timer after an instruction: the register that Fx18 loads, or what it was. -/
theorem exec_st_cases (h : exec i s = .next t) : t.st = s.st ∨ ∃ x, i = .ldStVx x ∧ t.st = s.getV x := by
  by_cases hst : t.st = s.st
  · exact Or.inl hst
  · obtain ⟨-, -, -, -, -, -, -, hwritten, -⟩ := elementsWrittenOnlyByTheirInstructions i s t h
    obtain ⟨x, rfl⟩ := hwritten hst
    exact Or.inr ⟨x, rfl, (congrArg State.st (exec_changesOnly h)).trans rfl⟩

/-- Settles O43: no instruction writes `beep`, so it is set by the decay alone, from a sound timer of 1. -/
theorem beepLatchedUntilHostTakesIt : Obligations.BeepLatchedUntilHostTakesIt := by
  intro s t h
  obtain ⟨w, i, u, hf, hd, hu, rfl⟩ := step_cases h
  have hbeep : u.beep = s.beep := by
    obtain ⟨-, -, -, -, -, -, -, -, -, -, -, hkept⟩ := elementsWrittenOnlyByTheirInstructions i _ u hu
    exact hkept
  rw [State.decay_beep, hbeep]
  refine ⟨fun hs => by rw [hs, Bool.true_or], fun ht hs => ?_⟩
  have hone : u.st = 1 := by simpa [hs] using ht
  refine ⟨by rw [State.decay_st, hone]; rfl, (exec_st_cases hu).imp (fun hst => hst.symm.trans hone) ?_⟩
  rintro ⟨x, rfl, hst⟩
  have hw : w = BitVec.ofNat 16 (0xF018 + x.val * 256) :=
    (encode_of_decodeWord hd).symm.trans (encode_of_decodeWord (decodeWord_ldStVx x))
  exact ⟨x, hw ▸ hf, hst.symm.trans hone⟩

end Sys2Proof.Machine

/-! PROOFS. The host's operations but the step (spec/10_state.md R35, R36, spec/20_memory.md R62, spec/60_exceptions.md R177, R179). -/

namespace Sys2Proof.Machine

/-- Settles O53: memory after a reset lists nothing, so each address reads as unlisted. -/
theorem resetRestoresMemoryPcDisplay : Obligations.ResetRestoresMemoryPcDisplay := fun _ =>
  ⟨rfl, rfl, fun _ ha => if_pos ha, fun _ ha _ => if_neg (not_lt.2 ha), rfl, Display.pixel_clear, fun _ _ => rfl, rfl⟩

/-- Settles O54: `create` and `reset` are one operation, and its vectors repeat one value. -/
theorem resetZeroesTheRest : Obligations.ResetZeroesTheRest := fun s =>
  ⟨hostReset s, rfl, rfl, fun r => Vector.getElem_replicate r.isLt, rfl, fun k => Vector.getElem_replicate k.isLt, rfl, rfl, rfl,
    fun k => Vector.getElem_replicate k.isLt, rfl⟩

theorem hostLoad_of_le {bytes : List Byte} (s : State) (h : bytes.length ≤ 3584) :
    hostLoad s bytes = (.ok, s.setMem (s.mem.writeBytes 512 bytes)) := if_neg (not_lt.2 h)

theorem hostLoad_of_gt {bytes : List Byte} (s : State) (h : 3584 < bytes.length) :
    hostLoad s bytes = (.failed (.romTooLarge bytes.length), s) := if_pos h

/-- Settles O55: a payload that fits ends at 4096 or below, where the laws of `Memory.writeBytes` hold. -/
theorem loadWritesPayloadOrNothing : Obligations.LoadWritesPayloadOrNothing := by
  intro bytes s hm
  refine ⟨fun h => ⟨_, hostLoad_of_le s h, fun k b hk => ?_, fun a ha => ?_, rfl⟩, hostLoad_of_gt s⟩
  · obtain ⟨hlt, rfl⟩ := List.getElem?_eq_some_iff.1 hk
    exact Memory.read_writeBytes_inside hm (by omega) hlt
  · exact Memory.read_writeBytes_outside hm (by omega) ha

theorem hostSetKey_of_lt (s : State) {index : Nat} (pressed : Bool) (h : index < 16) :
    hostSetKey s index pressed = (.ok, s.setKey ⟨index, h⟩ pressed) := dif_pos h

theorem hostSetKey_of_ge (s : State) {index : Nat} (pressed : Bool) (h : 16 ≤ index) :
    hostSetKey s index pressed = (.failed (.keyIndexOutOfRange index), s) := dif_neg (not_lt.2 h)

theorem getElem_setKey (s : State) (k j : KeyNo) (pressed : Bool) :
    (s.setKey k pressed).key[j] = if j = k then pressed else s.key[j] := by
  simp only [State.setKey_key, Fin.getElem_fin, Vector.getElem_set, Fin.ext_iff, eq_comm]

/-- Settles O56: below 16 one key state is written, from 16 up none. -/
theorem setKeySetsOneKey : Obligations.SetKeySetsOneKey := fun index pressed s =>
  ⟨fun h => ⟨_, hostSetKey_of_lt s pressed h, fun k => getElem_setKey s ⟨index, h⟩ k pressed, rfl⟩,
    hostSetKey_of_ge s pressed⟩

/-- Settles O58: `take_beep` answers the latch it clears. -/
theorem takeBeepReturnsAndClears : Obligations.TakeBeepReturnsAndClears := fun _ => ⟨rfl, rfl⟩

end Sys2Proof.Machine

/-! PROOFS. The machine's bounds (spec/10_state.md R25, R32): an instruction keeps each of the three from a fetched `pc`, so a step
keeps them, and so does every operation of the host. -/

namespace Sys2Proof.Machine

variable {i : Instr} {s t : State}

/-- `pc` after a fetch: past a word below 4096 (10_state R25). -/
def State.Fetched (s : State) : Prop := 2 ≤ s.pc.toNat ∧ s.pc.toNat ≤ 4096

theorem State.fetched_advance (h : s.pc.toNat ≤ 4094) : s.advance.Fetched := by
  have hpc : s.advance.pc.toNat = s.pc.toNat + 2 := by
    rw [State.advance_pc, BitVec.toNat_add_of_lt (by simp; omega)]
    rfl
  simp only [State.Fetched, hpc]
  omega

theorem State.Inv.advance (h : s.Inv) (hpc : s.pc.toNat ≤ 4094) : s.advance.Inv := by
  obtain ⟨hm, -, hstack⟩ := h
  exact ⟨hm, by have := (State.fetched_advance hpc).2; omega, hstack⟩

/-! ### One instruction -/

/-- The two stores write below 4096, and no other instruction writes memory. -/
theorem exec_mem_wf (h : exec i s = .next t) (hm : s.mem.wf = true) : t.mem.wf = true := by
  cases i with
  | ldB x =>
    obtain ⟨hin, rfl⟩ := exec_ldB_cases h
    exact Memory.wf_writeBytes hm hin
  | stRegs x =>
    obtain ⟨hin, rfl⟩ := exec_stRegs_cases h
    exact Memory.wf_writeBytes hm ((length_regsUpTo s x).symm ▸ hin)
  | _ => exact (congrArg Memory.wf (exec_mem_of_not_store h nofun nofun)).trans hm

/-- The table of R24 (O44) with its bounds: the largest target is that of Bnnn, a byte and twelve bits. -/
theorem exec_pc_le (h : exec i s = .next t) (hinv : s.Inv) (hpc : s.Fetched) : t.pc.toNat ≤ 4350 := by
  obtain ⟨-, -, hstack⟩ := hinv
  obtain ⟨hlow, hhigh⟩ := hpc
  have hskip : (s.pc + 2).toNat ≤ 4350 := by bv_omega
  have hstay : s.pc.toNat ≤ 4350 := by omega
  have hback : (s.pc - 2).toNat ≤ 4350 := by bv_omega
  have hmove := onlyListedCausesMovePc.1 i s t h
  cases i with
  | seImm | sneImm | seReg | sneReg | skp | sknp | ldVxK =>
    rw [hmove]
    split <;> assumption
  | jp nnn | call nnn =>
    have hlt := nnn.isLt
    exact hmove.trans_le (by omega)
  | jpV0 nnn =>
    have hlt := nnn.isLt
    have hv := (s.getV 0).isLt
    exact hmove.trans_le (by omega)
  | ret =>
    obtain ⟨n, hn, hpc⟩ := hmove
    exact hpc ▸ (hstack n.val n.isLt (by omega)).trans (by decide)
  | _ => exact hmove ▸ hstay

/-- A call adds its own return address, at most 4096; a return leaves fewer entries in use. -/
theorem exec_stack_le (h : exec i s = .next t) (hinv : s.Inv) (hpc : s.Fetched) (k : Nat) (hk : k < 16) (hsp : k < t.sp.val) :
    t.stack[k].toNat ≤ 4096 := by
  obtain ⟨-, -, hstack⟩ := hinv
  cases i with
  | call =>
    obtain ⟨hlt, rfl⟩ := exec_call_cases h
    by_cases hnew : s.sp.val = k
    · simpa [hnew] using hpc.2
    · have hold : k < s.sp.val := by
        have : k < s.sp.val + 1 := hsp
        omega
      simpa [Vector.getElem_set, hnew] using hstack k hk hold
  | ret =>
    obtain ⟨n, hn, hcount, rfl⟩ := exec_ret_cases h
    have : k < n := hsp
    exact hstack k hk (by omega)
  | _ =>
    obtain ⟨hentries, hcount⟩ := exec_stack_sp_of_not_call_ret h nofun nofun
    simp only [hentries]
    exact hstack k hk (hcount ▸ hsp)

theorem exec_keeps_inv (h : exec i s = .next t) (hinv : s.Inv) (hpc : s.Fetched) : t.Inv :=
  ⟨exec_mem_wf h hinv.1, exec_pc_le h hinv hpc, exec_stack_le h hinv hpc⟩

/-- The decay writes neither memory nor `pc` nor the stack. -/
theorem State.Inv.decay (h : s.Inv) : s.decay.Inv := h

/-- Settles O50: the instruction runs on the state advanced after its fetch, which is within the bounds. -/
theorem stepKeepsInvariant : Obligations.StepKeepsInvariant := by
  intro s t hinv h
  obtain ⟨w, i, u, hf, -, hu, rfl⟩ := step_cases h
  have hpc := fetch_eq_some_imp hf
  exact (exec_keeps_inv hu (hinv.advance hpc) (State.fetched_advance hpc)).decay

/-! ### The host -/

theorem State.Inv.leftByFault (h : s.Inv) : s.leftByFault.Inv := by
  rw [State.leftByFault_eq]
  split
  · next hpc => exact h.advance hpc
  · exact h

theorem hostStep_keeps_inv (h : s.Inv) : (hostStep s).2.Inv := by
  obtain ⟨t, ht⟩ | ⟨f, hf⟩ := stepIsOkOrFault s
  · rw [hostStep, ht]
    exact stepKeepsInvariant s t h ht
  · rw [hostStep_of_fault hf]
    exact h.leftByFault

/-- Settles O52: memory is canonical, `pc` is 512 and no entry is in use. -/
theorem resetMeetsInvariant : Obligations.ResetMeetsInvariant :=
  ⟨State.reset_mem_wf, by decide, fun k _ hk => absurd hk (Nat.not_lt_zero k)⟩

theorem hostLoad_keeps_inv (bytes : List Byte) (h : s.Inv) : (hostLoad s bytes).2.Inv := by
  by_cases hlen : bytes.length ≤ 3584
  · obtain ⟨hm, hpc, hstack⟩ := h
    rw [hostLoad_of_le s hlen]
    exact ⟨Memory.wf_writeBytes hm (by omega), hpc, hstack⟩
  · rw [hostLoad_of_gt s (not_le.1 hlen)]
    exact h

theorem hostSetKey_keeps_inv (index : Nat) (pressed : Bool) (h : s.Inv) : (hostSetKey s index pressed).2.Inv := by
  unfold hostSetKey
  split <;> exact h

/-- The operations one by one: a reset gives the reset state's bounds, the last three write none of the three elements. -/
theorem perform_keeps_inv (c : HostCall) (h : s.Inv) : (perform c s).2.Inv := by
  cases c with
  | create | reset => exact resetMeetsInvariant
  | load bytes => exact hostLoad_keeps_inv bytes h
  | step => exact hostStep_keeps_inv h
  | setKey index pressed => exact hostSetKey_keeps_inv index pressed h
  | readDisplay | takeBeep => exact h

/-- Settles O51: by induction on the schedule, `perform_keeps_inv` for each operation. -/
theorem hostScheduleKeepsInvariant : Obligations.HostScheduleKeepsInvariant := by
  intro calls
  induction calls with
  | nil => exact fun _ h => h
  | cons c cs ih => exact fun s h => ih _ (perform_keeps_inv c h)

end Sys2Proof.Machine
